-- ==== Sys2Proof/Word.lean ====
section
/-! DEFINITION. The words of the block: bytes and 16-bit values (rule R7). -/

namespace Sys2Proof

/-- A byte, `u8` of rule R7. -/
abbrev Byte := BitVec 8

/-- A 16-bit value, `u16` of rule R7. -/
abbrev U16 := BitVec 16

end Sys2Proof
end

