-- ==== Sys2Proof/Machine/Checksum.lean ====
section
/-! DEFINITION. The Checksum Engine (40_checksum, rules R63-R65): the CRC-16 generator and the LRC accumulator. -/

namespace Sys2Proof.Machine

/-- One of the 8 passes of CRC_STEP (rule R63): the low bit is tested before the logical shift. -/
def crcBit (acc : U16) : U16 :=
  if acc.getLsbD 0 then (acc >>> 1) ^^^ 0xA001 else acc >>> 1

/-- `n` passes of CRC_STEP. -/
def crcBits : Nat → U16 → U16
  | 0, acc => acc
  | n + 1, acc => crcBits n (crcBit acc)

/-- `crc_step` of rule R63. -/
def crcStep (acc : U16) (b : Byte) : U16 := crcBits 8 (acc ^^^ b.setWidth 16)

/-- `crc16` of rule R64: initial value 0xFFFF, bytes in index order, no final XOR. -/
def crc16 (xs : List Byte) : U16 := xs.foldl crcStep 0xFFFF

/-- The sum of the bytes as a natural number. -/
def byteSum (xs : List Byte) : Nat := (xs.map BitVec.toNat).sum

/-- `lrc` of rule R65: the two's complement of the sum modulo 256. -/
def lrc (xs : List Byte) : Byte := BitVec.ofNat 8 (256 - byteSum xs % 256)

end Sys2Proof.Machine
end

