-- ==== Sys2Proof/Syntax.lean ====
section
/-! DEFINITION. What the host can hand to the block, as bits (`Command`, `FrameWord`) and decoded (`Instr`): one constructor of `Instr` for each row of spec/opcode_table.json. -/

namespace Sys2Proof

/-- The encoding an instance frames (rule R16). -/
inductive Transport where
  | rtu
  | ascii
  deriving DecidableEq, Repr

/-- The direction of an INGEST (rule R19). -/
inductive Direction where
  | send
  | receive
  deriving DecidableEq, Repr

/-- A command word with its operand channels (rules R46 and R48). Every channel carries a value; an operation looks only at the ones it reads (log entry 11). -/
structure Command where
  word  : Byte
  data  : List Byte
  now   : Int
  value : Nat
  fc    : Byte
  deriving DecidableEq, Repr

/-- A whole frame as it stands on the wire of the instance it is handed to (rules R51 and R53), its direction, and its time: what the frame parser decodes by function code (log entry 12). The instance's TRANSPORT says which of the two layouts its bytes have (rule R60). -/
structure FrameWord where
  direction : Direction
  bytes     : List Byte
  now       : Int
  deriving DecidableEq, Repr

/-- One instruction of the block as bits: a command word (format CMD8) or a frame (format RTU_FRAME or ASCII_FRAME). -/
inductive Issue where
  | command (c : Command)
  | frame (w : FrameWord)
  deriving DecidableEq, Repr

/-- How a parsed frame stood on the wire: as its own bytes (RTU), or as `raw` characters between the delimiters (ASCII). -/
inductive Wire where
  | rtu
  | ascii (raw : List Byte)
  deriving DecidableEq, Repr

/-- The operands of a function-code row: everything of the frame but its byte 1 (30_encoding rules R51 and R53). `body` runs from byte 2 to the last checksum byte. -/
structure FnFrame where
  wire      : Wire
  direction : Direction
  addr      : Byte
  body      : List Byte
  now       : Int
  deriving DecidableEq, Repr

/-- The binary frame, address through checksum: `data` of rule R19. -/
def FnFrame.content (w : FnFrame) (fc : Byte) : List Byte := w.addr :: fc :: w.body

/-- The instructions: the twelve CMD8 rows (rule R47), then the eleven function-code rows (rule R57). -/
inductive Instr where
  | reset
  | setTimeout (value : Nat)
  | tx (data : List Byte) (now : Int)
  | rx (data : List Byte) (now : Int)
  | flush (now : Int)
  | crc16 (data : List Byte)
  | lrc (data : List Byte)
  | hexDecode (data : List Byte)
  | interpret (fc : Byte) (data : List Byte)
  | excMsg (code : Byte)
  | rtuLen (data : List Byte)
  | illegal (word : Byte)
  | exceptionResponse (original : BitVec 7) (w : FnFrame)
  | readCoils (w : FnFrame)
  | readDiscreteInputs (w : FnFrame)
  | readHoldingRegisters (w : FnFrame)
  | readInputRegisters (w : FnFrame)
  | writeSingleCoil (w : FnFrame)
  | writeSingleRegister (w : FnFrame)
  | diagnostics (w : FnFrame)
  | writeMultipleCoils (w : FnFrame)
  | writeMultipleRegisters (w : FnFrame)
  | unknownFunction (fc : Byte) (w : FnFrame)
  deriving DecidableEq, Repr

end Sys2Proof
end

