-- ==== Sys2Proof/Machine/Operands.lean ====
section
/-! DEFINITION. Every operand form of the spec: slices, 16-bit fields and bit sequences (rules R8, R30, R31, R33, R55, R56), the hex decoder (R54, R87), the ASCII delimiters (R86, R93), the function-code classes (R57) and the length estimator (R69-R75). -/

namespace Sys2Proof.Machine

/-! ### Slices and fields -/

/-- `xs[i..j)` of rule R8: half open, clipped, empty when `j <= i`. -/
def slice (xs : List Byte) (i j : Nat) : List Byte := (xs.take j).drop i

/-- `be16` of rules R30 and R55: the first byte is the more significant. -/
def be16 (hi lo : Byte) : U16 := BitVec.ofNat 16 (hi.toNat * 256 + lo.toNat)

/-- `le16` of rule R31: the RTU CRC alone, low byte first. -/
def le16 (lo hi : Byte) : U16 := BitVec.ofNat 16 (lo.toNat + 256 * hi.toNat)

/-- The bits of one byte, bit 0 first (rule R33). -/
def byteBits (b : Byte) : List Bool := (List.range 8).map b.getLsbD

/-- `bitsLSB` of rule R56: element `8j + k` is bit `k` of byte `j`. -/
def bitsLSB (bs : List Byte) : List Bool := bs.flatMap byteBits

/-- Big-endian registers of rules R105 and R110: an odd final byte is ignored. -/
def regsBE : List Byte → List U16
  | hi :: lo :: rest => be16 hi lo :: regsBE rest
  | _ => []

/-! ### ASCII characters and the hex decoder -/

/-- `':'` (rule R8). -/
def colon : Byte := 0x3A
/-- `CR` (rule R8). -/
def cr : Byte := 0x0D
/-- `LF` (rule R8). -/
def lf : Byte := 0x0A
/-- `'0'`, the padding character of rule R87. -/
def zeroChar : Byte := 0x30

/-- `hexval` of rule R87 over the alphabet of rule R54. -/
def hexVal (ch : Byte) : Option Nat :=
  if 0x30 ≤ ch.toNat ∧ ch.toNat ≤ 0x39 then some (ch.toNat - 0x30)
  else if 0x41 ≤ ch.toNat ∧ ch.toNat ≤ 0x46 then some (ch.toNat - 0x41 + 10)
  else if 0x61 ≤ ch.toNat ∧ ch.toNat ≤ 0x66 then some (ch.toNat - 0x61 + 10)
  else none

/-- The pairs of rule R87, high nibble first, over an even number of characters. -/
def hexPairs : List Byte → Option (List Byte)
  | [] => some []
  | [_] => none
  | h :: l :: rest =>
    match hexVal h, hexVal l, hexPairs rest with
    | some a, some b, some bs => some (BitVec.ofNat 8 (a * 16 + b) :: bs)
    | _, _, _ => none

/-- `hexdecode` of rule R87: an odd number of characters is padded with a leading zero. -/
def hexDecode (cs : List Byte) : Option (List Byte) :=
  if cs.length % 2 = 1 then hexPairs (zeroChar :: cs) else hexPairs cs

/-- The uppercase hex character of a nibble (rule R88). -/
def hexChar (n : Nat) : Byte :=
  if n < 10 then BitVec.ofNat 8 (0x30 + n) else BitVec.ofNat 8 (0x41 + (n - 10))

/-- Two uppercase hex characters a byte, high nibble first (rule R88). -/
def hexEncode (bs : List Byte) : List Byte :=
  bs.flatMap fun b => [hexChar (b.toNat / 16), hexChar (b.toNat % 16)]

/-- The leading `:` is removed when present (first half of `strip`, rule R93). -/
def stripStart (xs : List Byte) : List Byte :=
  if xs.head? = some colon then xs.drop 1 else xs

/-- The text ends in CR LF. -/
def endsCrlf (xs : List Byte) : Bool := xs.drop (xs.length - 2) = [cr, lf]

/-- The trailing CR LF is removed when present (second half of `strip`, rule R93). -/
def stripEnd (xs : List Byte) : List Byte :=
  if endsCrlf xs then xs.take (xs.length - 2) else xs

/-- `strip` of rule R93. -/
def strip (xs : List Byte) : List Byte := stripEnd (stripStart xs)

/-- The delimiter test of rule R92: a `:` first, CR LF last, at least three characters. -/
def delimited (xs : List Byte) : Bool :=
  3 ≤ xs.length && xs.head? = some colon && endsCrlf xs

/-- A text with its delimiters put back (rule R53). -/
def delimit (raw : List Byte) : List Byte := colon :: raw ++ [cr, lf]

/-! ### Function codes -/

/-- The classes of rule R57, one for each function-code row of spec/opcode_table.json. -/
inductive FnClass where
  | exceptionResponse
  | readCoils
  | readDiscreteInputs
  | readHoldingRegisters
  | readInputRegisters
  | writeSingleCoil
  | writeSingleRegister
  | diagnostics
  | writeMultipleCoils
  | writeMultipleRegisters
  | unknownFunction
  deriving DecidableEq, Repr

/-- The function-code decode of rule R57, its rows tested in their order. -/
def classOf (fc : Byte) : FnClass :=
  if fc &&& 0x80 = 0x80 then .exceptionResponse
  else if fc = 0x01 then .readCoils
  else if fc = 0x02 then .readDiscreteInputs
  else if fc = 0x03 then .readHoldingRegisters
  else if fc = 0x04 then .readInputRegisters
  else if fc = 0x05 then .writeSingleCoil
  else if fc = 0x06 then .writeSingleRegister
  else if fc = 0x08 then .diagnostics
  else if fc = 0x0F then .writeMultipleCoils
  else if fc = 0x10 then .writeMultipleRegisters
  else .unknownFunction

/-- The function code of an exception response to `original` (rule R100: `fc - 0x80` is the original function). -/
def exceptionFc (original : BitVec 7) : Byte := BitVec.ofNat 8 (0x80 + original.toNat)

/-! ### The length estimator -/

/-- The answer of RTU_LEN (rule R69). -/
inductive Estimate where
  | known (n : Nat)
  | undetermined
  deriving DecidableEq, Repr

/-- `rtu_len` of rule R69, its rows (R70-R75) tested in their order. -/
def rtuLen (buf : List Byte) : Estimate :=
  if buf.length < 4 then .undetermined
  else
    let fc := buf.getD 1 0
    if 0x80 ≤ fc.toNat then .known 5
    else if fc = 0x01 ∨ fc = 0x02 ∨ fc = 0x03 ∨ fc = 0x04 then .known (5 + (buf.getD 2 0).toNat)
    else if fc = 0x05 ∨ fc = 0x06 then .known 8
    else if fc = 0x0F ∨ fc = 0x10 then
      if buf.length < 8 then .undetermined else .known (9 + (buf.getD 6 0).toNat)
    else if fc = 0x08 then .known 8
    else .known 8

end Sys2Proof.Machine
end

