-- ==== Sys2Proof/WellFormed.lean ====
section
/-! DEFINITION. Which instructions are well formed: an illegal word is one that rule R49 does not admit, an unknown code is one of rule R59 (a), and the frame of a function-code row is one that a framer hands to the parser. -/

namespace Sys2Proof

/-- OP, bits 7:4 of a command word (rule R46). -/
def opField (w : Byte) : Nat := w.toNat / 16

/-- RSV, bits 3:1 of a command word (rule R46). -/
def rsvField (w : Byte) : Nat := w.toNat / 2 % 8

/-- D, bit 0 of a command word (rule R46). -/
def dField (w : Byte) : Nat := w.toNat % 2

/-- The legality test of rule R49. -/
def legalWord (w : Byte) : Bool :=
  rsvField w = 0 && opField w ≤ 9 && (dField w = 0 || opField w = 2)

/-- A frame a framer hands to the parser. RTU receive: sliced at exactly its row's length (rules R76 and R52). ASCII: `raw` is the hex text of the content, which has at least 3 bytes (rules R90, R92, R95). RTU send: any content with a function code (rule R78). -/
def FnFrame.wf (w : FnFrame) (fc : Byte) : Bool :=
  match w.wire, w.direction with
  | .rtu, .receive => Machine.rtuLen (w.content fc) = .known (w.content fc).length
  | .rtu, .send => true
  | .ascii raw, _ => Machine.hexDecode raw = some (w.content fc) && 3 ≤ (w.content fc).length

/-- The frame stands on the wire of an instance of transport `tr`. -/
def FnFrame.fits (tr : Transport) (w : FnFrame) : Bool :=
  match tr, w.wire with
  | .rtu, .rtu => true
  | .ascii, .ascii _ => true
  | .rtu, .ascii _ => false
  | .ascii, .rtu => false

/-- The instruction can be issued to an instance of transport `tr`: a command to any, a function-code row where its frame stands on that wire. -/
def Instr.fits (tr : Transport) : Instr → Bool
  | .reset => true
  | .setTimeout _ => true
  | .tx _ _ => true
  | .rx _ _ => true
  | .flush _ => true
  | .crc16 _ => true
  | .lrc _ => true
  | .hexDecode _ => true
  | .interpret _ _ => true
  | .excMsg _ => true
  | .rtuLen _ => true
  | .illegal _ => true
  | .exceptionResponse _ w => w.fits tr
  | .readCoils w => w.fits tr
  | .readDiscreteInputs w => w.fits tr
  | .readHoldingRegisters w => w.fits tr
  | .readInputRegisters w => w.fits tr
  | .writeSingleCoil w => w.fits tr
  | .writeSingleRegister w => w.fits tr
  | .diagnostics w => w.fits tr
  | .writeMultipleCoils w => w.fits tr
  | .writeMultipleRegisters w => w.fits tr
  | .unknownFunction _ w => w.fits tr

/-- Well-formedness of an instruction, constructor by constructor. -/
def Instr.wf : Instr → Bool
  | .reset => true
  | .setTimeout _ => true
  | .tx _ _ => true
  | .rx _ _ => true
  | .flush _ => true
  | .crc16 _ => true
  | .lrc _ => true
  | .hexDecode _ => true
  | .interpret _ _ => true
  | .excMsg _ => true
  | .rtuLen _ => true
  | .illegal word => !legalWord word
  | .exceptionResponse original w => w.wf (Machine.exceptionFc original)
  | .readCoils w => w.wf 0x01
  | .readDiscreteInputs w => w.wf 0x02
  | .readHoldingRegisters w => w.wf 0x03
  | .readInputRegisters w => w.wf 0x04
  | .writeSingleCoil w => w.wf 0x05
  | .writeSingleRegister w => w.wf 0x06
  | .diagnostics w => w.wf 0x08
  | .writeMultipleCoils w => w.wf 0x0F
  | .writeMultipleRegisters w => w.wf 0x10
  | .unknownFunction fc w => Machine.classOf fc = .unknownFunction && w.wf fc

end Sys2Proof
end

