-- ==== Sys2Proof/Decode.lean ====
section
/-! DEFINITION. The decoder of command words (rules R46-R49) and of frames by function code (rule R57), total, rejecting by name; after it the encoder, and the opcode table's own view of both. -/

namespace Sys2Proof

/-- Why a frame is not one a framer hands to the parser. -/
inductive DecodeError where
  | noFunctionCode   -- fewer than two content bytes: no byte 1 (rule R57)
  | notDelimited     -- ASCII text without `:` first and CR LF last (rule R53)
  | notHex           -- ASCII text with a character outside rule R54
  | wrongLength      -- not the length its row gives (rule R52), or fewer than 3 decoded bytes (rule R90)
  deriving DecidableEq, Repr

/-- The command decoder: legal words by OP and D (rule R47), every other word ILLEGAL (rules R49 and R123). -/
def decodeCommand (c : Command) : Instr :=
  if legalWord c.word then
    match opField c.word with
    | 0 => .reset
    | 1 => .setTimeout c.value
    | 2 => if dField c.word = 0 then .tx c.data c.now else .rx c.data c.now
    | 3 => .flush c.now
    | 4 => .crc16 c.data
    | 5 => .lrc c.data
    | 6 => .hexDecode c.data
    | 7 => .interpret c.fc c.data
    | 8 => .excMsg c.fc
    | 9 => .rtuLen c.data
    | _ => .illegal c.word
  else .illegal c.word

/-- The function-code row of rule R57 that a frame with byte 1 = `fc` is. -/
def fnInstr (fc : Byte) (w : FnFrame) : Instr :=
  match Machine.classOf fc with
  | .exceptionResponse => .exceptionResponse (BitVec.ofNat 7 (fc.toNat - 0x80)) w
  | .readCoils => .readCoils w
  | .readDiscreteInputs => .readDiscreteInputs w
  | .readHoldingRegisters => .readHoldingRegisters w
  | .readInputRegisters => .readInputRegisters w
  | .writeSingleCoil => .writeSingleCoil w
  | .writeSingleRegister => .writeSingleRegister w
  | .diagnostics => .diagnostics w
  | .writeMultipleCoils => .writeMultipleCoils w
  | .writeMultipleRegisters => .writeMultipleRegisters w
  | .unknownFunction => .unknownFunction fc w

/-- A binary frame, read by its byte 1 (rule R57). -/
def decodeContent (wire : Wire) (dir : Direction) (content : List Byte) (now : Int) : Except DecodeError Instr :=
  match content with
  | addr :: fc :: body =>
    let w : FnFrame := { wire := wire, direction := dir, addr := addr, body := body, now := now }
    if w.wf fc then .ok (fnInstr fc w) else .error .wrongLength
  | _ => .error .noFunctionCode

/-- A frame off the wire of an instance of transport `tr` (rule R60): RTU bytes as they stand (rule R51), ASCII text between its delimiters, hex decoded (rule R53). -/
def decodeFrame (tr : Transport) (f : FrameWord) : Except DecodeError Instr :=
  match tr with
  | .rtu => decodeContent .rtu f.direction f.bytes f.now
  | .ascii =>
    if Machine.delimited f.bytes then
      match Machine.hexDecode (Machine.strip f.bytes) with
      | some content => decodeContent (.ascii (Machine.strip f.bytes)) f.direction content f.now
      | none => .error .notHex
    else .error .notDelimited

/-- The decoder of both formats, on an instance of transport `tr`: a command word means the same on every instance (rule R60). -/
def decode (tr : Transport) : Issue → Except DecodeError Instr
  | .command c => .ok (decodeCommand c)
  | .frame f => decodeFrame tr f

/-- A command whose channels carry nothing but what is given. -/
def commandOf (word : Byte) (data : List Byte := []) (now : Int := 0) (value : Nat := 0) (fc : Byte := 0) : Issue :=
  .command { word := word, data := data, now := now, value := value, fc := fc }

/-- The frame with byte 1 = `fc` and the operands `w`, as it stands on the wire (rules R51 and R53). -/
def frameOf (fc : Byte) (w : FnFrame) : Issue :=
  match w.wire with
  | .rtu => .frame { direction := w.direction, bytes := w.content fc, now := w.now }
  | .ascii raw => .frame { direction := w.direction, bytes := Machine.delimit raw, now := w.now }

/-- The encoder, from the command bytes of rule R47 and the function codes of rule R57. -/
def encode : Instr → Issue
  | .reset => commandOf 0x00
  | .setTimeout value => commandOf 0x10 (value := value)
  | .tx data now => commandOf 0x20 (data := data) (now := now)
  | .rx data now => commandOf 0x21 (data := data) (now := now)
  | .flush now => commandOf 0x30 (now := now)
  | .crc16 data => commandOf 0x40 (data := data)
  | .lrc data => commandOf 0x50 (data := data)
  | .hexDecode data => commandOf 0x60 (data := data)
  | .interpret fc data => commandOf 0x70 (data := data) (fc := fc)
  | .excMsg code => commandOf 0x80 (fc := code)
  | .rtuLen data => commandOf 0x90 (data := data)
  | .illegal word => commandOf word
  | .exceptionResponse original w => frameOf (Machine.exceptionFc original) w
  | .readCoils w => frameOf 0x01 w
  | .readDiscreteInputs w => frameOf 0x02 w
  | .readHoldingRegisters w => frameOf 0x03 w
  | .readInputRegisters w => frameOf 0x04 w
  | .writeSingleCoil w => frameOf 0x05 w
  | .writeSingleRegister w => frameOf 0x06 w
  | .diagnostics w => frameOf 0x08 w
  | .writeMultipleCoils w => frameOf 0x0F w
  | .writeMultipleRegisters w => frameOf 0x10 w
  | .unknownFunction fc w => frameOf fc w

/-- Address 0, the function code, and as many zero bytes as the code's length row takes (rule R69). -/
def zeroFrame (fc : Byte) : List Byte :=
  let z : List Byte := 0 :: fc :: List.replicate 7 0
  match Machine.rtuLen z with
  | .known n => z.take n
  | .undetermined => z

/-- A binary frame as it stands on a wire of transport `tr`: its bytes (rule R51), or their uppercase hex between the delimiters (rule R53). -/
def onWire (tr : Transport) (content : List Byte) : List Byte :=
  match tr with
  | .rtu => content
  | .ascii => Machine.delimit (Machine.hexEncode content)

/-- What the 8 bits of a row of spec/opcode_table.json stand for on an instance of transport `tr`: a command word where rule R49 admits them as one, else a function code in a receive frame whose other bytes are zero. The table numbers both formats with the same 8 bits: log entry 13. -/
def tableIssue (tr : Transport) (w : Nat) : Issue :=
  let b := BitVec.ofNat 8 w
  if legalWord b then commandOf b
  else .frame { direction := .receive, bytes := onWire tr (zeroFrame b), now := 0 }

/-- The instruction the decoder reads from a row's bits, on an RTU instance. -/
def decodeTableWord (nbits w : Nat) : Option Instr :=
  if nbits = 8 ∧ w < 256 then (decode .rtu (tableIssue .rtu w)).toOption else none

end Sys2Proof
end

