-- ==== Sys2Proof/Config.lean ====
section
/-! DEFINITION. What the spec leaves open: the two timeout parameters of rule R6 and the free values of LAST_T. None has a body, so every claim about the model holds whatever they are. -/

namespace Sys2Proof.Config

/-- `rtuTimeoutMs` of rule R6, OPEN (92_eei_decisions D5): log entry 7. -/
opaque rtuTimeoutMs : Nat

/-- `asciiTimeoutMs` of rule R6, OPEN (92_eei_decisions D6): log entry 7. -/
opaque asciiTimeoutMs : Nat

/-- The integers that rule R118 lets LAST_T take ("any integer"), one for each use: log entry 6. -/
opaque freeTime : Nat → Int

end Sys2Proof.Config
end

