-- ==== Sys2Proof/Machine/Params.lean ====
section
/-! DEFINITION. The implementation parameters of rule R6: by transport the decided cap and the two open timeouts, and the exception-code table with its default (rules R21 and R58). -/

namespace Sys2Proof.Machine

/-- The exception-message type of rule R21. -/
inductive Msg where
  | illegalFunction
  | illegalDataAddress
  | illegalDataValue
  | slaveDeviceFailure
  | acknowledge
  | slaveDeviceBusy
  | negativeAcknowledge
  | memoryParityError
  | gatewayPathUnavailable
  | gatewayTargetFailed
  | unknownError
  deriving DecidableEq, Repr

/-- The type of the parameter `excTable` of rules R6 and R58: the codes that have a message, each with it. Every other code is `UNKNOWN_ERROR`. -/
abbrev ExcTable := List (Byte × Msg)

/-- The default value of `excTable`, the table of rule R58 (92_eei_decisions D23; log entry 10). -/
def defaultExcTable : ExcTable :=
  [(0x01, .illegalFunction), (0x02, .illegalDataAddress), (0x03, .illegalDataValue), (0x04, .slaveDeviceFailure),
    (0x05, .acknowledge), (0x06, .slaveDeviceBusy), (0x07, .negativeAcknowledge), (0x08, .memoryParityError),
    (0x0A, .gatewayPathUnavailable), (0x0B, .gatewayTargetFailed)]

/-- `bufCap` of rules R6 and R122: 264 for RTU, 513 for ASCII (92_eei_decisions D25). -/
def bufCap : Transport → Nat
  | .rtu => 264
  | .ascii => 513

/-- `rtuTimeoutMs` or `asciiTimeoutMs` (rules R6 and R25). -/
def timeoutMs : Transport → Nat
  | .rtu => Config.rtuTimeoutMs
  | .ascii => Config.asciiTimeoutMs

end Sys2Proof.Machine
end

