-- ==== Sys2Proof/Machine/State.lean ====
section
/-! DEFINITION. The records the block produces (rules R19-R23), the instance state (rule R16), and the machine: its instances, the host's moves still to come, and the observation of the run (rules R124 and R148). Plain data throughout. -/

namespace Sys2Proof.Machine

/-- The values of a write-multiple request (rule R22). -/
inductive MultiValues where
  | bits (bs : List Bool)
  | regs (rs : List U16)
  deriving DecidableEq, Repr

/-- `InterpretedPayload` of rule R22. -/
inductive InterpretedPayload where
  | readRequest (startAddress quantity : U16)
  | bitRead (byteCount : Byte) (bits : List Bool)
  | registerRead (byteCount : Byte) (registers : List U16)
  | singleWrite (address value : U16)
  | multiWrite (address quantity : U16) (byteCount : Option Byte) (values : Option MultiValues)
  | diagnostics (subFunction data : U16)
  deriving DecidableEq, Repr

/-- A checksum of a Frame: 16 bits for RTU, 8 bits for ASCII (rule R19). -/
inductive Checksum where
  | crc (v : U16)
  | lrc (v : Byte)
  deriving DecidableEq, Repr

/-- The Frame record of rule R19, its fields in the rule's order. -/
structure Frame where
  transport        : Transport
  direction        : Direction
  raw              : List Byte
  data             : List Byte
  slaveAddress     : Option Byte
  functionCode     : Option Byte
  payload          : List Byte
  checksumReceived : Option Checksum
  checksumComputed : Option Checksum
  checksumValid    : Bool
  isException      : Bool
  originalFunction : Option Byte
  exceptionCode    : Option Byte
  exceptionMessage : Option Msg
  interpreted      : Option InterpretedPayload
  timestamp        : Int
  deriving DecidableEq, Repr

/-- The operation results of rule R23. -/
inductive Result where
  | ok
  | frames (frames : List Frame) (overflow : Bool)
  | crc (v : U16)
  | lrc (v : Byte)
  | bytes (bs : Option (List Byte))
  | payload (p : Option InterpretedPayload)
  | msg (m : Msg)
  | length (e : Estimate)
  | illegal
  deriving DecidableEq, Repr

/-- One framer instance: the fields of rule R16, and the timeout parameter of its creation (rules R6 and R116), which RESET puts back. -/
structure Inst where
  transport    : Transport
  buf          : List Byte
  lastT        : Int
  timeout      : Nat
  cap          : Nat
  resetTimeout : Nat
  deriving DecidableEq, Repr

/-- The derived phase of rule R17. -/
inductive Phase where
  | empty
  | accumulating
  deriving DecidableEq, Repr

/-- EMPTY when `BUF` is empty, ACCUMULATING otherwise (rule R17). -/
def Inst.phase (I : Inst) : Phase := if I.buf = [] then .empty else .accumulating

/-- The creation parameters (rules R116 and R124). -/
structure Params where
  transport : Transport
  timeoutMs : Nat
  cap       : Nat
  deriving DecidableEq, Repr

/-- An instance right after its creation (rules R25 and R116). `t` is its unspecified LAST_T. -/
def Inst.create (p : Params) (t : Int) : Inst :=
  { transport := p.transport, buf := [], lastT := t, timeout := p.timeoutMs, cap := p.cap, resetTimeout := p.timeoutMs }

/-- What the host may do to the block (rule R124). -/
inductive HostMove where
  | create (p : Params)             -- a new instance, numbered next
  | teardown (k : Nat)              -- instance `k` is destroyed (rule R117)
  | issue (k : Nat) (w : Issue)     -- one instruction to instance `k`
  | overlap (k : Nat) (a b : Issue) -- two at once on instance `k`, which rule R139 forbids
  deriving DecidableEq, Repr

/-- Why the machine stops with a fault. -/
inductive Fault where
  /-- Raised by every meaning when the addressed instance does not exist or was torn down ("after teardown the instance takes no further command", rule R117). Safe: the model stops, and the spec gives no further command there. -/
  | noInstance
  deriving DecidableEq, Repr

/-- Why the machine refuses a step. -/
inductive Refusal where
  /-- Raised by an arm of `exec` that has no meaning. Safe: the model stops. No arm raises it now. -/
  | notModelled (mnemonic : String)
  /-- Raised by `step` on two commands in flight on one instance (rule R139, 93_implementation_defined row 4: treatment `refuse`). Safe: the model stops. -/
  | concurrentCommands
  /-- Raised by `step` on bytes handed to the frame parser that are no frame on the addressed instance's wire. Safe: the model stops, and the block never sees such a frame. -/
  | badFrame (e : DecodeError)
  deriving DecidableEq, Repr

/-- The machine. `insts` and `excTable` are the block: instance `k` is entry `k`, `none` once torn down (rule R12), and one exception-code table serves all instances, fixed when the block is built (rules R6, R43 and R58; log entry 29). The other fields are the model's own: `sel` the instance the command in progress is addressed to, `script` the host's moves to come, `results` the observation so far (rule R148), `fresh` the number of free values used. -/
structure State where
  insts    : List (Option Inst)
  excTable : ExcTable
  sel      : Nat
  script   : List HostMove
  results  : List (Nat × Result)
  fresh    : Nat
  deriving DecidableEq, Repr

/-- The parameters an instance of transport `tr` takes where the host chooses none (rule R6). -/
def defaultParams (tr : Transport) : Params :=
  { transport := tr, timeoutMs := timeoutMs tr, cap := bufCap tr }

/-- Right after reset: one instance per transport encoding, each as created (rules R25 and R137), the block built with the default table (rule R58), nothing issued and nothing observed. LAST_T, which the spec leaves unspecified, is 0: log entries 4 and 5. -/
def State.reset : State :=
  { insts := [some (Inst.create (defaultParams .rtu) 0), some (Inst.create (defaultParams .ascii) 0)]
    excTable := defaultExcTable
    sel := 0
    script := []
    results := []
    fresh := 0 }

end Sys2Proof.Machine
end

