-- ==== Sys2Proof/Machine/Interp.lean ====
section
/-! DEFINITION. The Frame Interpreter (43_interpreter, rules R96-R113): one decode a function code, the dispatch INTERPRET, and the exception-message table EXCMSG. -/

namespace Sys2Proof.Machine

/-! ### The shapes (rules R97, R98, R102) -/

/-- `interp_bits` of rule R103: 4 bytes are a request, otherwise a byte count and packed bits, least significant first. -/
def interpBits : List Byte → Option InterpretedPayload
  | [] => none
  | [a, b, c, d] => some (.readRequest (be16 a b) (be16 c d))
  | bc :: rest => some (.bitRead bc (bitsLSB (rest.take bc.toNat)))

/-- `interp_regs` of rule R105: 4 bytes are a request, otherwise a byte count and big-endian registers. -/
def interpRegs : List Byte → Option InterpretedPayload
  | [] => none
  | [a, b, c, d] => some (.readRequest (be16 a b) (be16 c d))
  | bc :: rest => some (.registerRead bc (regsBE (rest.take bc.toNat)))

/-- `interp_multi` of rule R109; `unpack` reads the value bytes as its kind says. -/
def interpMulti (unpack : List Byte → MultiValues) : List Byte → Option InterpretedPayload
  | a :: b :: c :: d :: bc :: rest =>
    some (.multiWrite (be16 a b) (be16 c d) (some bc) (some (unpack (rest.take bc.toNat))))
  | [a, b, c, d] => some (.multiWrite (be16 a b) (be16 c d) none none)
  | _ => none

/-! ### One decode a function code -/

/-- 0x01, READ_COILS (rule R103). -/
def interp01 (p : List Byte) : Option InterpretedPayload := interpBits p
/-- 0x02, READ_DISCRETE_INPUTS (rule R104). -/
def interp02 (p : List Byte) : Option InterpretedPayload := interpBits p
/-- 0x03, READ_HOLDING_REGISTERS (rule R105). -/
def interp03 (p : List Byte) : Option InterpretedPayload := interpRegs p
/-- 0x04, READ_INPUT_REGISTERS (rule R106). -/
def interp04 (p : List Byte) : Option InterpretedPayload := interpRegs p

/-- 0x05, write single coil (rule R107): 1 exactly for 0xFF00. -/
def interp05 : List Byte → Option InterpretedPayload
  | a :: b :: c :: d :: _ => some (.singleWrite (be16 a b) (if be16 c d = 0xFF00 then 1 else 0))
  | _ => none

/-- 0x06, write single register (rule R108). -/
def interp06 : List Byte → Option InterpretedPayload
  | a :: b :: c :: d :: _ => some (.singleWrite (be16 a b) (be16 c d))
  | _ => none

/-- 0x08, diagnostics (rule R111). -/
def interp08 : List Byte → Option InterpretedPayload
  | a :: b :: c :: d :: _ => some (.diagnostics (be16 a b) (be16 c d))
  | _ => none

/-- 0x0F, WRITE_MULTIPLE_COILS (rule R109). -/
def interp0F (p : List Byte) : Option InterpretedPayload := interpMulti (fun vb => .bits (bitsLSB vb)) p
/-- 0x10, WRITE_MULTIPLE_REGISTERS (rule R110). -/
def interp10 (p : List Byte) : Option InterpretedPayload := interpMulti (fun vb => .regs (regsBE vb)) p

/-- `interpret` of rule R101; every other code gives `none` (rule R112). -/
def interpret (fc : Byte) (p : List Byte) : Option InterpretedPayload :=
  match classOf fc with
  | .readCoils => interp01 p
  | .readDiscreteInputs => interp02 p
  | .readHoldingRegisters => interp03 p
  | .readInputRegisters => interp04 p
  | .writeSingleCoil => interp05 p
  | .writeSingleRegister => interp06 p
  | .writeMultipleCoils => interp0F p
  | .writeMultipleRegisters => interp10 p
  | .diagnostics => interp08 p
  | .exceptionResponse => none
  | .unknownFunction => none

/-! ### The exception-message table -/

/-- `excmsg` of rule R113: the table's message for the code, `UNKNOWN_ERROR` for a code it does not list (rule R58). The table is a parameter (rule R6). -/
def excMsg : ExcTable → Byte → Msg
  | [], _ => .unknownError
  | (c, m) :: rest, code => if code = c then m else excMsg rest code

/-- The display strings of rule R21. -/
def msgText : Msg → String
  | .illegalFunction => "Illegal Function"
  | .illegalDataAddress => "Illegal Data Address"
  | .illegalDataValue => "Illegal Data Value"
  | .slaveDeviceFailure => "Slave Device Failure"
  | .acknowledge => "Acknowledge"
  | .slaveDeviceBusy => "Slave Device Busy"
  | .negativeAcknowledge => "Negative Acknowledge"
  | .memoryParityError => "Memory Parity Error"
  | .gatewayPathUnavailable => "Gateway Path Unavailable"
  | .gatewayTargetFailed => "Gateway Target Device Failed to Respond"
  | .unknownError => "Unknown Error"

end Sys2Proof.Machine
end

