-- ==== Sys2Proof/Machine/Flags.lean ====
section
/-! DEFINITION. The flags of a Frame (rule R15: the block has no flag register): checksum validity, the exception flag with the fields that hang on it, and what finishes a Frame (rules R99-R101). -/

namespace Sys2Proof.Machine

/-- `checksumValid` of a receive Frame: a checksum was received, and it is the computed one (rules R77 and R95). -/
def sumsAgree (received computed : Option Checksum) : Bool := received.isSome && received = computed

/-- The exception fields of a Frame that is no exception response (the `else` halves of rule R100). -/
def noException (f : Frame) : Frame :=
  { f with isException := false, originalFunction := none, exceptionCode := none, exceptionMessage := none }

/-- The exception fields of an exception response to `original`: the code is the payload's first byte, when there is one (rule R100). -/
def asException (tbl : ExcTable) (original : Byte) (f : Frame) : Frame :=
  { f with
    isException := true
    originalFunction := some original
    exceptionCode := f.payload.head?
    exceptionMessage := f.payload.head?.map (excMsg tbl) }

/-- `exc_fields` of rule R100: decided by the function code alone, not by `checksumValid`. -/
def excFields (tbl : ExcTable) (f : Frame) : Frame :=
  match f.functionCode with
  | some fc => if 0x80 ≤ fc.toNat then asException tbl (fc - 0x80) f else noException f
  | none => noException f

/-- `set_interpreted` of rule R101. -/
def setInterpreted (f : Frame) : Frame :=
  { f with interpreted :=
      match f.functionCode with
      | some fc => if !f.isException && f.checksumValid then interpret fc f.payload else none
      | none => none }

/-- `finish` of rule R99: rule R100, then rule R101. -/
def finish (tbl : ExcTable) (f : Frame) : Frame := setInterpreted (excFields tbl f)

end Sys2Proof.Machine
end

