-- ==== Sys2Proof/Machine/Frames.lean ====
section
/-! DEFINITION. Building Frames: RTU receive and send (rules R77 and R78), ASCII (R95), the ASCII receive candidate (R90) and the send-failure Frame (R93). -/

namespace Sys2Proof.Machine

/-! ### RTU -/

/-- The received CRC of an RTU frame, low byte first, present from 4 bytes on (rules R31 and R78). -/
def rtuReceived (d : List Byte) : Option Checksum :=
  if 4 ≤ d.length then some (.crc (le16 (d.getD (d.length - 2) 0) (d.getD (d.length - 1) 0))) else none

/-- The CRC computed over everything but the trailing two bytes (rules R66 and R78). -/
def rtuComputed (d : List Byte) : Option Checksum :=
  if 4 ≤ d.length then some (.crc (crc16 (slice d 0 (d.length - 2)))) else none

/-- The fields that rules R77 and R78 set before `finish`. -/
def rtuFields (dir : Direction) (valid : Bool) (d : List Byte) (now : Int) : Frame :=
  { transport := .rtu
    direction := dir
    raw := d
    data := d
    slaveAddress := d.head?
    functionCode := d.tail.head?
    payload := slice d 2 (d.length - 2)
    checksumReceived := rtuReceived d
    checksumComputed := rtuComputed d
    checksumValid := valid
    isException := false
    originalFunction := none
    exceptionCode := none
    exceptionMessage := none
    interpreted := none
    timestamp := now }

/-- The fields of a receive frame before `finish` (rule R77). -/
def rtuFieldsRx (d : List Byte) (now : Int) : Frame :=
  rtuFields .receive (sumsAgree (rtuReceived d) (rtuComputed d)) d now

/-- The fields of a send frame before `finish` (rule R78): valid whenever it has an address. -/
def rtuFieldsTx (d : List Byte) (now : Int) : Frame := rtuFields .send (decide (1 ≤ d.length)) d now

/-- `rtu_frame_rx` of rule R77. -/
def rtuFrameRx (tbl : ExcTable) (d : List Byte) (now : Int) : Frame := finish tbl (rtuFieldsRx d now)

/-- `rtu_frame_tx` of rule R78. -/
def rtuFrameTx (tbl : ExcTable) (xs : List Byte) (now : Int) : Frame := finish tbl (rtuFieldsTx xs now)

/-! ### ASCII -/

/-- The received LRC, the last content byte, of content with at least 3 bytes (rule R95). -/
def asciiReceived (c : List Byte) : Option Checksum :=
  if 3 ≤ c.length then some (.lrc (c.getD (c.length - 1) 0)) else none

/-- The LRC computed over everything but the last content byte (rules R66 and R95). -/
def asciiComputed (c : List Byte) : Option Checksum :=
  if 3 ≤ c.length then some (.lrc (lrc (slice c 0 (c.length - 1)))) else none

/-- `checksumValid` of an ASCII Frame: forced in the send direction (rule R95). -/
def asciiValid (dir : Direction) (c : List Byte) : Bool :=
  match dir with
  | .send => true
  | .receive => sumsAgree (asciiReceived c) (asciiComputed c)

/-- The fields that rule R95 sets before `finish`. -/
def asciiFields (c raw : List Byte) (dir : Direction) (now : Int) : Frame :=
  { transport := .ascii
    direction := dir
    raw := raw
    data := c
    slaveAddress := c.head?
    functionCode := c.tail.head?
    payload := slice c 2 (c.length - 1)
    checksumReceived := asciiReceived c
    checksumComputed := asciiComputed c
    checksumValid := asciiValid dir c
    isException := false
    originalFunction := none
    exceptionCode := none
    exceptionMessage := none
    interpreted := none
    timestamp := now }

/-- `ascii_frame` of rule R95. -/
def asciiFrame (tbl : ExcTable) (c raw : List Byte) (dir : Direction) (now : Int) : Frame := finish tbl (asciiFields c raw dir now)

/-- `ascii_fail_tx` of rule R93; it does not go through `finish` (rule R99). -/
def asciiFailTx (raw : List Byte) (now : Int) : Frame :=
  { transport := .ascii
    direction := .send
    raw := raw
    data := []
    slaveAddress := none
    functionCode := none
    payload := []
    checksumReceived := none
    checksumComputed := none
    checksumValid := false
    isException := false
    originalFunction := none
    exceptionCode := none
    exceptionMessage := none
    interpreted := none
    timestamp := now }

/-- `ascii_candidate_rx` of rule R90, on a candidate with its delimiters. -/
def asciiCandidateRx (tbl : ExcTable) (cand : List Byte) (now : Int) : Option Frame :=
  let inner := slice cand 1 (cand.length - 2)
  match hexDecode inner with
  | none => none
  | some c => if c.length < 3 then none else some (asciiFrame tbl c inner .receive now)

/-- The one Frame of an ASCII send (rule R92): parsed when delimited and at least 3 bytes long, else the failure Frame. -/
def asciiFrameTx (tbl : ExcTable) (xs : List Byte) (now : Int) : Frame :=
  if delimited xs then
    match hexDecode (strip xs) with
    | some c => if 3 ≤ c.length then asciiFrame tbl c (strip xs) .send now else asciiFailTx (strip xs) now
    | none => asciiFailTx (strip xs) now
  else asciiFailTx (strip xs) now

end Sys2Proof.Machine
end

