-- ==== Sys2Proof/Machine/Extract.lean ====
section
/-! DEFINITION. Extraction: the RTU loop (rule R76), the ASCII loop (rule R89), and the one `extract` that the receive discipline calls by transport (rule R81). Each loop runs on a pass count of at least one a byte, which no buffer exhausts (log entry 20). -/

namespace Sys2Proof.Machine

/-- The RTU loop of rule R76 with at most `passes` passes: the slices, and what stays in `BUF`. -/
def rtuScan : Nat → List Byte → List (List Byte) × List Byte
  | 0, buf => ([], buf)
  | passes + 1, buf =>
    match rtuLen buf with
    | .undetermined => ([], buf)
    | .known n =>
      if buf.length < n then ([], buf)
      else
        let r := rtuScan passes (buf.drop n)
        (buf.take n :: r.1, r.2)

/-- The slices of rule R76 and the residual. -/
def rtuSlices (buf : List Byte) : List (List Byte) × List Byte := rtuScan buf.length buf

/-- `rtu_extract` of rule R76. -/
def rtuExtract (tbl : ExcTable) (buf : List Byte) (now : Int) : List Frame × List Byte :=
  let r := rtuSlices buf
  (r.1.map fun d => rtuFrameRx tbl d now, r.2)

/-- The text before the first CR LF and the text after it (rule R89); a CR without LF and an LF without CR are other bytes (rule R86). -/
def splitCrlf : List Byte → Option (List Byte × List Byte)
  | [] => none
  | b :: rest =>
    if b = cr ∧ rest.head? = some lf then some ([], rest.tail)
    else
      match splitCrlf rest with
      | some (before, after) => some (b :: before, after)
      | none => none

/-- The ASCII loop of rule R89 with at most `passes` passes: the candidates with their delimiters, and what stays in `BUF`. -/
def asciiScan : Nat → List Byte → List (List Byte) × List Byte
  | 0, buf => ([], buf)
  | passes + 1, buf =>
    match buf.dropWhile (· != colon) with
    | [] => ([], [])
    | c :: text =>
      match splitCrlf text with
      | none => ([], c :: text)
      | some (inner, rest) =>
        let r := asciiScan passes rest
        ((c :: inner ++ [cr, lf]) :: r.1, r.2)

/-- The candidates of rule R89 and the residual. -/
def asciiCandidates (buf : List Byte) : List (List Byte) × List Byte := asciiScan buf.length buf

/-- `ascii_extract` of rule R89. -/
def asciiExtract (tbl : ExcTable) (buf : List Byte) (now : Int) : List Frame × List Byte :=
  let r := asciiCandidates buf
  (r.1.filterMap fun cand => asciiCandidateRx tbl cand now, r.2)

/-- `extract` of rules R81 and R120, by transport. -/
def extract (tbl : ExcTable) (tr : Transport) (buf : List Byte) (now : Int) : List Frame × List Byte :=
  match tr with
  | .rtu => rtuExtract tbl buf now
  | .ascii => asciiExtract tbl buf now

end Sys2Proof.Machine
end

