-- ==== Sys2Proof/Machine/Ops.lean ====
section
/-! DEFINITION. The named operations over the state: those of one instance (rules R81, R118-R121), which take the block's exception-code table where they build Frames, and the one way a meaning reads and writes the addressed instance. The block has no trap: there is no exception to take and none to return from (rules R131 and R132). -/

namespace Sys2Proof.Machine

/-! ### One instance -/

/-- The stale test of rules R81 and R120: a non-empty `BUF`, and a difference in the integers strictly above `TIMEOUT`. -/
def isStale (I : Inst) (now : Int) : Bool := !I.buf.isEmpty && decide (now - I.lastT > (I.timeout : Int))

/-- The stale pass of rules R81 and R120: extract first, then discard the remainder. -/
def stalePass (tbl : ExcTable) (I : Inst) (now : Int) : List Frame × Inst :=
  if isStale I now then ((extract tbl I.transport I.buf now).1, { I with buf := [] }) else ([], I)

/-- `append`, then `LAST_T <- now` (rule R81). -/
def appendBytes (I : Inst) (xs : List Byte) (now : Int) : Inst := { I with buf := I.buf ++ xs, lastT := now }

/-- Extraction on an instance: the Frames, and the instance with its residual (rule R81). -/
def extractInst (tbl : ExcTable) (I : Inst) (now : Int) : List Frame × Inst :=
  ((extract tbl I.transport I.buf now).1, { I with buf := (extract tbl I.transport I.buf now).2 })

/-- `cap_check` of rule R121: the overflow bit, and the instance with a residual above `CAP` discarded. -/
def capCheck (I : Inst) : Bool × Inst := if I.cap < I.buf.length then (true, { I with buf := [] }) else (false, I)

/-- `recv_ingest` of rule R81: stale pass, append, extraction, cap check. -/
def recvIngest (tbl : ExcTable) (I : Inst) (xs : List Byte) (now : Int) : Inst × List Frame × Bool :=
  let old := stalePass tbl I now
  let new := extractInst tbl (appendBytes old.2 xs now) now
  let capped := capCheck new.2
  (capped.2, old.1 ++ new.1, capped.1)

/-- The one Frame of INGEST send, by transport (rules R79 and R92). -/
def sendFrame (tbl : ExcTable) (tr : Transport) (xs : List Byte) (now : Int) : Frame :=
  match tr with
  | .rtu => rtuFrameTx tbl xs now
  | .ascii => asciiFrameTx tbl xs now

/-- `reset` of rule R118; `t` is the integer LAST_T takes. -/
def resetInst (I : Inst) (t : Int) : Inst := { I with buf := [], timeout := I.resetTimeout, lastT := t }

/-! ### The addressed instance -/

/-- The instance the command in progress is addressed to, if it exists. -/
def State.live (s : State) : Option Inst := s.insts.getD s.sel none

/-- The addressed instance becomes `I`, and the host receives `r` (rules R12 and R148). -/
def State.commit (s : State) (I : Inst) (r : Result) : State :=
  { s with insts := s.insts.set s.sel (some I), results := s.results ++ [(s.sel, r)] }

/-- A free value was used (log entry 6). -/
def State.useFree (s : State) : State := { s with fresh := s.fresh + 1 }

/-- Every meaning is one atomic step of the addressed instance: it reads the instance and writes its next state and its result (rule R12). -/
def onInst (s : State) (f : Inst → Inst × Result) : Host.Outcome State Fault Refusal :=
  match s.live with
  | none => .fault .noInstance
  | some I => .next (s.commit (f I).1 (f I).2)

/-- A query: a result, and no instance field written (rule R37). -/
def answer (s : State) (r : Result) : Host.Outcome State Fault Refusal := onInst s fun I => (I, r)

end Sys2Proof.Machine
end

