-- ==== Sys2Proof/Machine/Control.lean ====
section
/-! DEFINITION. The control commands (44_control): RESET, SET_TIMEOUT, FLUSH, and the illegal word. -/

namespace Sys2Proof.Machine

/-- RESET (rule R118). LAST_T becomes a free value. -/
def execReset (s : State) : Host.Outcome State Fault Refusal :=
  onInst s.useFree fun I => (resetInst I (Config.freeTime s.fresh), .ok)

/-- SET_TIMEOUT (rule R119): neither `BUF` nor `LAST_T` is touched. -/
def execSetTimeout (value : Nat) (s : State) : Host.Outcome State Fault Refusal :=
  onInst s fun I => ({ I with timeout := value }, .ok)

/-- FLUSH (rule R120): the stale pass alone; `LAST_T` is not written and the overflow bit is false. -/
def execFlush (now : Int) (s : State) : Host.Outcome State Fault Refusal :=
  onInst s fun I => ((stalePass s.excTable I now).2, .frames (stalePass s.excTable I now).1 false)

/-- An illegal command word (rule R123): the result ILLEGAL and nothing else. -/
def execIllegal (_word : Byte) (s : State) : Host.Outcome State Fault Refusal := answer s .illegal

end Sys2Proof.Machine
end

