-- ==== Sys2Proof/Machine/Function.lean ====
section
/-! DEFINITION. The function-code rows: what the frame parser makes of one frame whose byte 1 is the row's code (rules R57, R100, R103-R112). Each emits the Frame that an RX or TX of the addressed instance builds of the same frame (log entry 12). -/

namespace Sys2Proof.Machine

/-- The characters of a frame on an ASCII wire (rule R53). A frame that was not read off one is written as its own uppercase hex (log entry 30). -/
def fnText (w : FnFrame) (fc : Byte) : List Byte :=
  match w.wire with
  | .ascii raw => raw
  | .rtu => hexEncode (w.content fc)

/-- The Frame fields before `finish`, by the instance's TRANSPORT (rule R19): rule R77 or R78 on an RTU instance, rule R95 on an ASCII one. -/
def fnBase (tr : Transport) (w : FnFrame) (fc : Byte) : Frame :=
  match tr, w.direction with
  | .rtu, .receive => rtuFieldsRx (w.content fc) w.now
  | .rtu, .send => rtuFieldsTx (w.content fc) w.now
  | .ascii, dir => asciiFields (w.content fc) (fnText w fc) dir w.now

/-- The Frame of a row that is no exception response: `interpreted` is the row's own decode of the payload when the checksum is valid (rules R100 and R101). -/
def fnFrame (tr : Transport) (w : FnFrame) (fc : Byte) (decodePayload : List Byte → Option InterpretedPayload) : Frame :=
  let f := noException (fnBase tr w fc)
  { f with interpreted := if f.checksumValid then decodePayload f.payload else none }

/-- The Frame of an exception response to `original`: exception fields (rule R100), and no interpretation (rule R114). -/
def fnException (tbl : ExcTable) (tr : Transport) (w : FnFrame) (original : BitVec 7) : Frame :=
  { asException tbl (original.setWidth 8) (fnBase tr w (exceptionFc original)) with interpreted := none }

/-- The operation's result is the one Frame the addressed instance's parser makes (`emit`, rule R9). -/
def emitFrame (s : State) (build : Inst → Frame) : Host.Outcome State Fault Refusal :=
  onInst s fun I => (I, .frames [build I] false)

/-- EXCEPTION_RESPONSE (rules R100 and R114). -/
def execExceptionResponse (original : BitVec 7) (w : FnFrame) (s : State) : Host.Outcome State Fault Refusal :=
  emitFrame s fun I => fnException s.excTable I.transport w original

/-- READ_COILS (rule R103). -/
def execReadCoils (w : FnFrame) (s : State) : Host.Outcome State Fault Refusal := emitFrame s fun I => fnFrame I.transport w 0x01 interp01

/-- READ_DISCRETE_INPUTS (rule R104). -/
def execReadDiscreteInputs (w : FnFrame) (s : State) : Host.Outcome State Fault Refusal :=
  emitFrame s fun I => fnFrame I.transport w 0x02 interp02

/-- READ_HOLDING_REGISTERS (rule R105). -/
def execReadHoldingRegisters (w : FnFrame) (s : State) : Host.Outcome State Fault Refusal :=
  emitFrame s fun I => fnFrame I.transport w 0x03 interp03

/-- READ_INPUT_REGISTERS (rule R106). -/
def execReadInputRegisters (w : FnFrame) (s : State) : Host.Outcome State Fault Refusal :=
  emitFrame s fun I => fnFrame I.transport w 0x04 interp04

/-- WRITE_SINGLE_COIL (rule R107). -/
def execWriteSingleCoil (w : FnFrame) (s : State) : Host.Outcome State Fault Refusal :=
  emitFrame s fun I => fnFrame I.transport w 0x05 interp05

/-- WRITE_SINGLE_REGISTER (rule R108). -/
def execWriteSingleRegister (w : FnFrame) (s : State) : Host.Outcome State Fault Refusal :=
  emitFrame s fun I => fnFrame I.transport w 0x06 interp06

/-- DIAGNOSTICS (rule R111). -/
def execDiagnostics (w : FnFrame) (s : State) : Host.Outcome State Fault Refusal := emitFrame s fun I => fnFrame I.transport w 0x08 interp08

/-- WRITE_MULTIPLE_COILS (rule R109). -/
def execWriteMultipleCoils (w : FnFrame) (s : State) : Host.Outcome State Fault Refusal :=
  emitFrame s fun I => fnFrame I.transport w 0x0F interp0F

/-- WRITE_MULTIPLE_REGISTERS (rule R110). -/
def execWriteMultipleRegisters (w : FnFrame) (s : State) : Host.Outcome State Fault Refusal :=
  emitFrame s fun I => fnFrame I.transport w 0x10 interp10

/-- UNKNOWN_FUNCTION (rule R112): raw bytes and checksums, no decode. -/
def execUnknownFunction (fc : Byte) (w : FnFrame) (s : State) : Host.Outcome State Fault Refusal :=
  emitFrame s fun I => fnFrame I.transport w fc fun _ => none

end Sys2Proof.Machine
end

