-- ==== Sys2Proof/Machine/Ingest.lean ====
section
/-! DEFINITION. The two INGEST commands: TX (rules R79 and R92) and RX (rules R80 and R91). -/

namespace Sys2Proof.Machine

/-- TX, INGEST send: exactly one Frame, no instance field written (rules R79 and R92). -/
def execTx (data : List Byte) (now : Int) (s : State) : Host.Outcome State Fault Refusal :=
  onInst s fun I => (I, .frames [sendFrame s.excTable I.transport data now] false)

/-- RX, INGEST receive (rules R80 and R91, by the discipline of rule R81). -/
def execRx (data : List Byte) (now : Int) (s : State) : Host.Outcome State Fault Refusal :=
  onInst s fun I => ((recvIngest s.excTable I data now).1, .frames (recvIngest s.excTable I data now).2.1 (recvIngest s.excTable I data now).2.2)

end Sys2Proof.Machine
end

