-- ==== Sys2Proof/Machine/Query.lean ====
section
/-! DEFINITION. The query commands on the stateless units (rules R18 and R37). -/

namespace Sys2Proof.Machine

/-- CRC16 (rule R64). -/
def execCrc16 (data : List Byte) (s : State) : Host.Outcome State Fault Refusal := answer s (.crc (crc16 data))

/-- LRC (rule R65). -/
def execLrc (data : List Byte) (s : State) : Host.Outcome State Fault Refusal := answer s (.lrc (lrc data))

/-- HEXDECODE (rule R87). -/
def execHexDecode (data : List Byte) (s : State) : Host.Outcome State Fault Refusal := answer s (.bytes (hexDecode data))

/-- INTERPRET (rule R101). -/
def execInterpret (fc : Byte) (data : List Byte) (s : State) : Host.Outcome State Fault Refusal :=
  answer s (.payload (interpret fc data))

/-- EXCMSG (rule R113), by the block's table (rules R43 and R58). -/
def execExcMsg (code : Byte) (s : State) : Host.Outcome State Fault Refusal :=
  answer s (.msg (excMsg s.excTable code))

/-- RTU_LEN (rule R69). -/
def execRtuLen (data : List Byte) (s : State) : Host.Outcome State Fault Refusal := answer s (.length (rtuLen data))

end Sys2Proof.Machine
end

