-- ==== Sys2Proof/Machine/Dispatch.lean ====
section
/-! DEFINITION. One arm a constructor of Instr: its meaning. -/

namespace Sys2Proof.Machine

def exec (i : Instr) (s : State) : Host.Outcome State Fault Refusal :=
  match i with
  | .reset => Sys2Proof.Machine.execReset s
  | .setTimeout value => Sys2Proof.Machine.execSetTimeout value s
  | .tx data now => Sys2Proof.Machine.execTx data now s
  | .rx data now => Sys2Proof.Machine.execRx data now s
  | .flush now => Sys2Proof.Machine.execFlush now s
  | .crc16 data => Sys2Proof.Machine.execCrc16 data s
  | .lrc data => Sys2Proof.Machine.execLrc data s
  | .hexDecode data => Sys2Proof.Machine.execHexDecode data s
  | .interpret fc data => Sys2Proof.Machine.execInterpret fc data s
  | .excMsg code => Sys2Proof.Machine.execExcMsg code s
  | .rtuLen data => Sys2Proof.Machine.execRtuLen data s
  | .illegal word => Sys2Proof.Machine.execIllegal word s
  | .exceptionResponse original w => Sys2Proof.Machine.execExceptionResponse original w s
  | .readCoils w => Sys2Proof.Machine.execReadCoils w s
  | .readDiscreteInputs w => Sys2Proof.Machine.execReadDiscreteInputs w s
  | .readHoldingRegisters w => Sys2Proof.Machine.execReadHoldingRegisters w s
  | .readInputRegisters w => Sys2Proof.Machine.execReadInputRegisters w s
  | .writeSingleCoil w => Sys2Proof.Machine.execWriteSingleCoil w s
  | .writeSingleRegister w => Sys2Proof.Machine.execWriteSingleRegister w s
  | .diagnostics w => Sys2Proof.Machine.execDiagnostics w s
  | .writeMultipleCoils w => Sys2Proof.Machine.execWriteMultipleCoils w s
  | .writeMultipleRegisters w => Sys2Proof.Machine.execWriteMultipleRegisters w s
  | .unknownFunction fc w => Sys2Proof.Machine.execUnknownFunction fc w s

end Sys2Proof.Machine
end

