-- ==== Sys2Proof/Machine/Moves.lean ====
section
/-! DEFINITION. The host's moves (rule R124) that are no instruction, and how an instruction is fetched from one: creation (R116), teardown (R117), addressing. `step` only calls these. -/

namespace Sys2Proof.Machine

/-- Creation (rule R116): the new instance takes the next number; its LAST_T is a free value. -/
def createInst (p : Params) (s : State) : State :=
  { s.useFree with insts := s.insts ++ [some (Inst.create p (Config.freeTime s.fresh))] }

/-- Teardown (rule R117): the instance is gone with whatever it buffered; no Frame, no result. -/
def teardownInst (k : Nat) (s : State) : State := { s with insts := s.insts.set k none }

/-- The move is taken from the script, and instance `k` is addressed. -/
def addressInst (k : Nat) (rest : List HostMove) (s : State) : State := { s with script := rest, sel := k }

/-- The instruction the addressed instance reads in an issue, by its TRANSPORT (rule R60), or how the machine stops: there is no such instance (rule R117, log entry 16), or the bytes are no frame on its wire (log entry 21). -/
def fetchInstr (s : State) (w : Issue) : Except (Host.Outcome State Fault Refusal) Instr :=
  match s.live with
  | none => .error (.fault .noInstance)
  | some I => (decode I.transport w).mapError fun e => .refused (.badFrame e)

/-- The wire of the addressed instance; with no instance there the choice does not matter, since nothing is read. -/
def wireOf (s : State) : Transport :=
  match s.live with
  | some I => I.transport
  | none => .rtu

/-- The host move that issues a row of spec/opcode_table.json to the addressed instance, on its wire. -/
def tableMove (s : State) (w : Nat) : HostMove := .issue s.sel (tableIssue (wireOf s) w)

end Sys2Proof.Machine
end

