-- ==== Sys2Proof/Machine/Step.lean ====
section
/-! DEFINITION. One step: the host's next move is taken from the script and carried out (rules R12 and R124). With no move the block waits (log entry 15). -/

namespace Sys2Proof.Machine

/-- One step of the machine. -/
def step (s : State) : Host.Outcome State Fault Refusal :=
  match s.script with
  | [] => .next s
  | .create p :: rest => .next (createInst p { s with script := rest })
  | .teardown k :: rest => .next (teardownInst k { s with script := rest })
  | .issue k w :: rest =>
    match fetchInstr (addressInst k rest s) w with
    | .ok i => exec i (addressInst k rest s)
    | .error stop => stop
  | .overlap _ _ _ :: _ => .refused .concurrentCommands

/-- `s` with a row's instruction as the host's next move (log entries 13 and 14). -/
def State.withFetchWord (s : State) (_nbits w : Nat) : State := { s with script := tableMove s w :: s.script }

end Sys2Proof.Machine
end

