-- ==== Sys2Proof/Machine/Assembler.lean ====
section
/-! DEFINITION. The textual command syntax of rule R61: one line of text to one command. A line is a sequence of character codes (rule R8). Where the rule is silent: log entry 23. -/

namespace Sys2Proof.Machine

/-- The character codes of a string (rule R8). -/
def charCodes (t : String) : List Byte := t.toList.map fun c => BitVec.ofNat 8 c.toNat

/-- The space character. -/
def space : Byte := 0x20
/-- The double quote. -/
def quote : Byte := 0x22
/-- The comment sign `;`. -/
def semicolon : Byte := 0x3B
/-- The backslash. -/
def backslash : Byte := 0x5C
/-- The minus sign. -/
def minus : Byte := 0x2D

/-- The line without its comment; a `;` inside a quoted text starts none. -/
def dropComment : Bool → List Byte → List Byte
  | _, [] => []
  | quoted, c :: rest =>
    if c = semicolon ∧ quoted = false then []
    else c :: dropComment (if c = quote then !quoted else quoted) rest

/-- The text without leading spaces. -/
def skipSpaces (cs : List Byte) : List Byte := cs.dropWhile (· = space)

/-- The first word of a text, and the text after it. -/
def firstWord (cs : List Byte) : List Byte × List Byte :=
  ((skipSpaces cs).takeWhile (· ≠ space), skipSpaces ((skipSpaces cs).dropWhile (· ≠ space)))

/-- The value of a decimal number, most significant digit first. -/
def digits : Nat → List Byte → Option Nat
  | acc, [] => some acc
  | acc, c :: rest =>
    if 0x30 ≤ c.toNat ∧ c.toNat ≤ 0x39 then digits (acc * 10 + (c.toNat - 0x30)) rest else none

/-- A natural number in decimal. -/
def readNat (cs : List Byte) : Option Nat := if cs = [] then none else digits 0 cs

/-- A decimal integer, `<now>`. -/
def readInt (cs : List Byte) : Option Int :=
  match cs with
  | [] => none
  | c :: rest =>
    if c = minus then (readNat rest).map fun n => -(n : Int)
    else (readNat cs).map fun n => (n : Int)

/-- One two-digit hex byte. -/
def readByte (cs : List Byte) : Option Byte :=
  if cs.length = 2 then
    match hexDecode cs with
    | some [b] => some b
    | _ => none
  else none

/-- `<hex bytes>`: two digits a byte, one space between two bytes; `passes` bounds the number of bytes. -/
def readHexBytes : Nat → List Byte → Option (List Byte)
  | _, [] => some []
  | 0, _ => none
  | passes + 1, cs =>
    match readByte (firstWord cs).1, readHexBytes passes (firstWord cs).2 with
    | some b, some bs => some (b :: bs)
    | _, _ => none

/-- A quoted text after its opening quote, with `\r` and `\n`. -/
def readText : List Byte → Option (List Byte)
  | [] => none
  | c :: rest =>
    if c = quote then (if skipSpaces rest = [] then some [] else none)
    else if c = backslash then
      match rest with
      | [] => none
      | e :: rest' =>
        if e = 0x72 then (readText rest').map (cr :: ·)
        else if e = 0x6E then (readText rest').map (lf :: ·)
        else none
    else (readText rest).map (c :: ·)

/-- `<hex bytes | "text">`. -/
def readData (cs : List Byte) : Option (List Byte) :=
  match cs with
  | [] => some []
  | c :: rest => if c = quote then readText rest else readHexBytes cs.length cs

/-- `"<text>"` alone. -/
def readQuoted (cs : List Byte) : Option (List Byte) :=
  match cs with
  | [] => none
  | c :: rest => if c = quote then readText rest else none

/-- The operands of a line whose name is `name` (rule R61). -/
def assembleOperands (name args : List Byte) : Option Instr :=
  if name = charCodes "RESET" then (if args = [] then some .reset else none)
  else if name = charCodes "SETTO" then (readNat args).map .setTimeout
  else if name = charCodes "TX" then
    match readInt (firstWord args).1, readData (firstWord args).2 with
    | some now, some data => some (.tx data now)
    | _, _ => none
  else if name = charCodes "RX" then
    match readInt (firstWord args).1, readData (firstWord args).2 with
    | some now, some data => some (.rx data now)
    | _, _ => none
  else if name = charCodes "FLUSH" then (readInt args).map .flush
  else if name = charCodes "CRC16" then (readHexBytes args.length args).map .crc16
  else if name = charCodes "LRC" then (readHexBytes args.length args).map .lrc
  else if name = charCodes "HEXDEC" then (readQuoted args).map .hexDecode
  else if name = charCodes "INTERP" then
    match readByte (firstWord args).1, readHexBytes args.length (firstWord args).2 with
    | some fc, some data => some (.interpret fc data)
    | _, _ => none
  else if name = charCodes "EXCMSG" then (readByte args).map .excMsg
  else if name = charCodes "RTULEN" then (readHexBytes args.length args).map .rtuLen
  else none

/-- The text without trailing spaces. -/
def trimEnd (cs : List Byte) : List Byte := (skipSpaces cs.reverse).reverse

/-- One line of rule R61, as the issue it stands for; `none` for a line that is no command. -/
def assemble (line : List Byte) : Option Issue :=
  let w := firstWord (trimEnd (dropComment false line))
  (assembleOperands w.1 w.2).map encode

end Sys2Proof.Machine
end

