-- ==== Sys2Proof/Machine/Conditions.lean ====
section
/-! DEFINITION. The condition table of rule R125: each condition with its number, and which conditions an instruction raises on an instance, in the order of rule R129. No state field records them (log entry 24). -/

namespace Sys2Proof.Machine

/-- The conditions of rule R125. -/
inductive Condition where
  | wait
  | staleDiscard
  | checksumMismatch
  | malformedAscii
  | protocolException
  | unknownFunction
  | sendNoAddress
  | overflowDiscard
  | illegalCommand
  deriving DecidableEq, Repr

/-- The condition numbers of rule R125. -/
def conditionNumber : Condition → Nat
  | .wait => 0
  | .staleDiscard => 1
  | .checksumMismatch => 2
  | .malformedAscii => 3
  | .protocolException => 4
  | .unknownFunction => 5
  | .sendNoAddress => 6
  | .overflowDiscard => 7
  | .illegalCommand => 8

/-- The function code is in the unknown class of rule R57. -/
def unknownFc (fc : Option Byte) : Bool :=
  match fc with
  | some c => classOf c = .unknownFunction
  | none => false

/-- Conditions 2, 4 and 5 of one Frame; a send Frame has no checksum mismatch (rule R125). A Frame may raise two of them (rule R130 (b)) and the spec orders only those of different Frames (rule R129): that 2 stands before 4 and 5 here is the model's choice (DESIGN CHOICE, log entry 28). -/
def frameConditions (f : Frame) : List Condition :=
  (if f.direction = .receive && !f.checksumValid then [.checksumMismatch] else [])
    ++ (if f.isException then [.protocolException] else [])
    ++ (if unknownFc f.functionCode then [.unknownFunction] else [])

/-- Conditions of what one extraction slices off, head first (rule R129); an ASCII candidate that is dropped is condition 3. -/
def extractConditions (tbl : ExcTable) (tr : Transport) (buf : List Byte) (now : Int) : List Condition :=
  match tr with
  | .rtu => (rtuSlices buf).1.flatMap fun d => frameConditions (rtuFrameRx tbl d now)
  | .ascii =>
    (asciiCandidates buf).1.flatMap fun cand =>
      match asciiCandidateRx tbl cand now with
      | some f => frameConditions f
      | none => [.malformedAscii]

/-- Conditions of the stale pass: what its extraction raises, then condition 1 (rules R120 and R129). -/
def staleConditions (tbl : ExcTable) (I : Inst) (now : Int) : List Condition :=
  if isStale I now then extractConditions tbl I.transport I.buf now ++ [.staleDiscard] else []

/-- Conditions 0 and 7: a residual that stays, or one above the cap (rules R121 and R125). -/
def residualConditions (I : Inst) : List Condition :=
  if (capCheck I).1 then [.overflowDiscard] else if I.buf = [] then [] else [.wait]

/-- Conditions of one RX, in the order of rule R129. -/
def rxConditions (tbl : ExcTable) (I : Inst) (xs : List Byte) (now : Int) : List Condition :=
  let J := appendBytes (stalePass tbl I now).2 xs now
  staleConditions tbl I now ++ extractConditions tbl J.transport J.buf now ++ residualConditions (extractInst tbl J now).2

/-- Conditions of one TX: condition 6 for an RTU operand without address, condition 3 for ASCII text that gives the failure Frame of rule R93. The cause column of rule R125 names only a non-hex character and fewer than 3 decoded bytes: that text without its delimiters raises condition 3 too, good hex of 3 or more bytes included, is the model's choice (DESIGN CHOICE, log entry 31). -/
def txConditions (tbl : ExcTable) (tr : Transport) (xs : List Byte) (now : Int) : List Condition :=
  let f := sendFrame tbl tr xs now
  if f.checksumValid then frameConditions f
  else match tr with
    | .rtu => [.sendNoAddress]
    | .ascii => [.malformedAscii]

/-- The conditions an instruction raises on an instance of a block with this exception-code table (rule R125, column "raised by"). -/
def conditions (tbl : ExcTable) (i : Instr) (I : Inst) : List Condition :=
  match i with
  | .tx data now => txConditions tbl I.transport data now
  | .rx data now => rxConditions tbl I data now
  | .flush now => staleConditions tbl I now
  | .illegal _ => [.illegalCommand]
  | .exceptionResponse original w => frameConditions (finish tbl (fnBase I.transport w (exceptionFc original)))
  | .readCoils w => frameConditions (finish tbl (fnBase I.transport w 0x01))
  | .readDiscreteInputs w => frameConditions (finish tbl (fnBase I.transport w 0x02))
  | .readHoldingRegisters w => frameConditions (finish tbl (fnBase I.transport w 0x03))
  | .readInputRegisters w => frameConditions (finish tbl (fnBase I.transport w 0x04))
  | .writeSingleCoil w => frameConditions (finish tbl (fnBase I.transport w 0x05))
  | .writeSingleRegister w => frameConditions (finish tbl (fnBase I.transport w 0x06))
  | .diagnostics w => frameConditions (finish tbl (fnBase I.transport w 0x08))
  | .writeMultipleCoils w => frameConditions (finish tbl (fnBase I.transport w 0x0F))
  | .writeMultipleRegisters w => frameConditions (finish tbl (fnBase I.transport w 0x10))
  | .unknownFunction fc w => frameConditions (finish tbl (fnBase I.transport w fc))
  | .reset => []
  | .setTimeout _ => []
  | .crc16 _ => []
  | .lrc _ => []
  | .hexDecode _ => []
  | .interpret _ _ => []
  | .excMsg _ => []
  | .rtuLen _ => []

end Sys2Proof.Machine
end

