-- ==== Sys2Proof/Safety.lean ====
section
/-! DEFINITION. What a good instance, a good Frame and a good state are: the rules about the whole machine that claims are stated in (rules R20, R82, R83, R94, R121). -/

namespace Sys2Proof

open Machine

/-! ### Instances -/

/-- The fixed point of rule R82: no length yet, or a length above what is buffered. -/
def rtuWaits (buf : List Byte) : Bool :=
  match rtuLen buf with
  | .undetermined => true
  | .known n => buf.length < n

/-- The text holds a CR followed at once by an LF (rule R86). -/
def hasCrlf : List Byte → Bool
  | a :: b :: rest => (a = cr && b = lf) || hasCrlf (b :: rest)
  | _ => false

/-- The fixed point of rule R94 (a): empty, or a `:` with no CR LF pair after it. -/
def asciiWaits (buf : List Byte) : Bool :=
  match buf with
  | [] => true
  | c :: text => c = colon && !hasCrlf text

/-- The buffer is at a fixed point of its framer's extraction (rules R82 and R94). -/
def bufWaits (tr : Transport) (buf : List Byte) : Bool :=
  match tr with
  | .rtu => rtuWaits buf
  | .ascii => asciiWaits buf

/-- Between operations: a buffer at a fixed point and not above `CAP` (rules R16, R82, R94, R121). -/
def instOk (I : Inst) : Bool := bufWaits I.transport I.buf && I.buf.length ≤ I.cap

/-! ### Frames -/

/-- The payload bytes the shape of a recognized function code needs (rule R98); `none` for a code that is not recognized. -/
def minPayload (fc : Byte) : Option Nat :=
  match classOf fc with
  | .readCoils => some 1
  | .readDiscreteInputs => some 1
  | .readHoldingRegisters => some 1
  | .readInputRegisters => some 1
  | .writeSingleCoil => some 4
  | .writeSingleRegister => some 4
  | .diagnostics => some 4
  | .writeMultipleCoils => some 4
  | .writeMultipleRegisters => some 4
  | .exceptionResponse => none
  | .unknownFunction => none

/-- The function code is recognized and the payload long enough for its shape (rule R20 (b)). -/
def interpretable (fc : Option Byte) (p : List Byte) : Bool :=
  match fc.bind minPayload with
  | some n => n ≤ p.length
  | none => false

/-- The least number of binary bytes of a receive frame (rule R20 (a)). -/
def minData : Transport → Nat
  | .rtu => 4
  | .ascii => 3

/-- The Frame invariants of rule R20, and the presence rules of rule R19 for the exception fields. -/
def frameOk (f : Frame) : Bool :=
  (f.direction = .send || minData f.transport ≤ f.data.length)
    && f.interpreted.isSome = (!f.isException && f.checksumValid && interpretable f.functionCode f.payload)
    && f.exceptionCode.isSome = (f.isException && !f.payload.isEmpty)
    && f.exceptionMessage.isSome = f.exceptionCode.isSome
    && f.originalFunction.isSome = f.isException
    && f.isException = (match f.functionCode with | some fc => decide (0x80 ≤ fc.toNat) | none => false)

/-- The Frames a result hands to the host. -/
def resultFrames : Result → List Frame
  | .frames fs _ => fs
  | .ok => []
  | .crc _ => []
  | .lrc _ => []
  | .bytes _ => []
  | .payload _ => []
  | .msg _ => []
  | .length _ => []
  | .illegal => []

/-- Everything observed so far satisfies rule R20. -/
def observedOk (s : State) : Bool := s.results.all fun r => (resultFrames r.2).all frameOk

/-! ### States -/

/-- Every instance that exists is good. -/
def instsOk (s : State) : Bool := s.insts.all fun slot => match slot with | some I => instOk I | none => true

/-- The machine's invariant: rules R16, R82, R94 and R121 for every instance, rule R20 for every Frame the host was handed. -/
def stateOk (s : State) : Bool := instsOk s && observedOk s

/-- The addressed instance is `I`. -/
def Addressed (s : State) (I : Inst) : Prop := s.live = some I

/-- The state after an operation of the addressed instance that leaves it as `I` and answers `r`: nothing else changes. -/
def afterOp (s : State) (I : Inst) (r : Result) : State :=
  { insts := s.insts.set s.sel (some I), excTable := s.excTable, sel := s.sel, script := s.script, results := s.results ++ [(s.sel, r)], fresh := s.fresh }

/-- The instruction `i`, run on the instance `I` of a block with the exception-code table `tbl`, hands the Frame `f` to the host, whatever else the block holds. -/
def Emits (tbl : ExcTable) (i : Instr) (I : Inst) (f : Frame) : Prop :=
  ∀ s : State, s.excTable = tbl → Addressed s I → ∃ (s' : State) (r : Result),
    exec i s = .next s' ∧ s'.results = s.results ++ [(s.sel, r)] ∧ f ∈ resultFrames r

/-- Extraction of the ASCII buffer `buf` meets a candidate whose text is not hex or decodes to fewer than 3 bytes (rule R90). -/
def dropsCandidate (buf : List Byte) : Prop :=
  ∃ inner : List Byte, delimit inner ∈ (asciiCandidates buf).1 ∧ ∀ c, hexDecode inner = some c → c.length < 3

/-! ### The pseudocode of 43_interpreter, by payload index -/

/-- `be16(p, i)` of rule R55. -/
def field16 (p : List Byte) (i : Nat) : U16 := BitVec.ofNat 16 ((p.getD i 0).toNat * 256 + (p.getD (i + 1) 0).toNat)

/-- `take bc (drop (k + 1) p)` with `bc = p[k]` (rules R102 and R109). -/
def countedData (p : List Byte) (k : Nat) : List Byte := (p.drop (k + 1)).take (p.getD k 0).toNat

/-- `bitsLSB` of rule R56 by index: element `n` is bit `n mod 8` of byte `n / 8`. -/
def bitsAt (bs : List Byte) : List Bool :=
  (List.range (8 * bs.length)).map fun n => decide ((bs.getD (n / 8) 0).toNat / 2 ^ (n % 8) % 2 = 1)

/-- The registers of rules R105 and R109 by index: `be16(bs, 2i)` for `i` below half the length, rounded down. -/
def regsAt (bs : List Byte) : List U16 := (List.range (bs.length / 2)).map fun i => field16 bs (2 * i)

/-- The decode of rules R103 and R104. -/
def bitReadOf (p : List Byte) : Option InterpretedPayload :=
  if p.length = 4 then some (.readRequest (field16 p 0) (field16 p 2))
  else if p.length < 1 then none
  else some (.bitRead (p.getD 0 0) (bitsAt (countedData p 0)))

/-- The decode of rules R105 and R106. -/
def registerReadOf (p : List Byte) : Option InterpretedPayload :=
  if p.length = 4 then some (.readRequest (field16 p 0) (field16 p 2))
  else if p.length < 1 then none
  else some (.registerRead (p.getD 0 0) (regsAt (countedData p 0)))

/-- The decode of rule R107. -/
def coilWriteOf (p : List Byte) : Option InterpretedPayload :=
  if p.length < 4 then none else some (.singleWrite (field16 p 0) (if field16 p 2 = 0xFF00 then 1 else 0))

/-- The decode of rule R108. -/
def registerWriteOf (p : List Byte) : Option InterpretedPayload :=
  if p.length < 4 then none else some (.singleWrite (field16 p 0) (field16 p 2))

/-- The decode of rule R111. -/
def diagnosticsOf (p : List Byte) : Option InterpretedPayload :=
  if p.length < 4 then none else some (.diagnostics (field16 p 0) (field16 p 2))

/-- The decode of rules R109 and R110, for one reading of the value bytes. -/
def multiWriteOf (p : List Byte) (values : MultiValues) : Option InterpretedPayload :=
  if p.length < 4 then none
  else if 5 ≤ p.length then some (.multiWrite (field16 p 0) (field16 p 2) (some (p.getD 4 0)) (some values))
  else some (.multiWrite (field16 p 0) (field16 p 2) none none)

/-! ### Fragmented streams (rule R85) -/

/-- The fragments received one after another: the instance, all Frames, and whether any operation overflowed. -/
def rxAll (tbl : ExcTable) (I : Inst) : List (List Byte × Int) → Inst × List Frame × Bool
  | [] => (I, [], false)
  | (xs, t) :: rest =>
    let r := recvIngest tbl I xs t
    let q := rxAll tbl r.1 rest
    (q.1, r.2.1 ++ q.2.1, r.2.2 || q.2.2)

/-- Every gap between two receptions is at most `timeout`, counted from the last reception at `last`. -/
def gapsWithin (timeout : Nat) (last : Int) : List (List Byte × Int) → Bool
  | [] => true
  | (_, t) :: rest => decide (t - last ≤ (timeout : Int)) && gapsWithin timeout t rest

/-- A Frame without its time, for the claims that hold "except for `timestamp`" (rule R85). -/
def untimed (f : Frame) : Frame := { f with timestamp := 0 }

end Sys2Proof
end

