-- ==== Sys2Proof/Certificates/Slice0/Obligations.lean ====
section
/-! DEFINITION. The statements about the machine, from the numbered rules of spec/, for the provers. -/

open Sys2Proof Sys2Proof.Machine

/-! ### Encodings -/

/-- Rule R47, the full command bytes: whatever the operand channels carry, each decodes to its operation with the operands the table names. -/
def Obligations.CommandBytesDecodeToTheirOperations : Prop :=
  ∀ (data : List Byte) (now : Int) (value : Nat) (fc : Byte),
    decodeCommand ⟨0x00, data, now, value, fc⟩ = .reset ∧
    decodeCommand ⟨0x10, data, now, value, fc⟩ = .setTimeout value ∧
    decodeCommand ⟨0x20, data, now, value, fc⟩ = .tx data now ∧
    decodeCommand ⟨0x21, data, now, value, fc⟩ = .rx data now ∧
    decodeCommand ⟨0x30, data, now, value, fc⟩ = .flush now ∧
    decodeCommand ⟨0x40, data, now, value, fc⟩ = .crc16 data ∧
    decodeCommand ⟨0x50, data, now, value, fc⟩ = .lrc data ∧
    decodeCommand ⟨0x60, data, now, value, fc⟩ = .hexDecode data ∧
    decodeCommand ⟨0x70, data, now, value, fc⟩ = .interpret fc data ∧
    decodeCommand ⟨0x80, data, now, value, fc⟩ = .excMsg fc ∧
    decodeCommand ⟨0x90, data, now, value, fc⟩ = .rtuLen data

/-- Rule R49: a word is decoded as ILLEGAL exactly when RSV, OP and D, cut from its bits, do not admit it. -/
def Obligations.IllegalExactlyWhenNotAdmitted : Prop :=
  ∀ c : Command,
    decodeCommand c = .illegal c.word ↔
      ¬ (c.word.extractLsb' 1 3 = 0 ∧ (c.word.extractLsb' 4 4).toNat ≤ 9 ∧
          (c.word.extractLsb' 0 1 = 0 ∨ (c.word.extractLsb' 4 4).toNat = 2))

/-- The round trip over all instructions, on either wire (rules R47, R51, R53, R57, R60): no bit of an encoding is dropped. -/
def Obligations.DecodeOfEncodeIsTheInstruction : Prop :=
  ∀ (tr : Transport) (i : Instr), i.wf = true → i.fits tr = true → decode tr (encode i) = .ok i

/-- The other direction for frames (rules R51, R53, R57): a frame that decodes is well formed, stands on that wire, and is the only encoding of what it decodes to. -/
def Obligations.DecodedFrameEncodesBack : Prop :=
  ∀ (tr : Transport) (f : FrameWord) (i : Instr),
    decode tr (.frame f) = .ok i → i.wf = true ∧ i.fits tr = true ∧ encode i = .frame f

/-- One frame of each row of rule R57, written out by rules R51-R53 (address 11H): what it decodes to. -/
def Obligations.FrameWordsDecodeToTheirRows : Prop :=
  let rx := fun (bytes : List Byte) => (decodeFrame .rtu ⟨.receive, bytes, 4⟩).toOption
  let op := fun (body : List Byte) => (⟨.rtu, .receive, 0x11, body, 4⟩ : FnFrame)
  rx [0x11, 0x83, 0x02, 0xC1, 0x34] = some (.exceptionResponse 0x03 (op [0x02, 0xC1, 0x34])) ∧
  rx [0x11, 0x01, 0x01, 0x05, 0, 0] = some (.readCoils (op [0x01, 0x05, 0, 0])) ∧
  rx [0x11, 0x02, 0x00, 0, 0] = some (.readDiscreteInputs (op [0x00, 0, 0])) ∧
  rx [0x11, 0x03, 0x02, 0, 0x0A, 0, 0] = some (.readHoldingRegisters (op [0x02, 0, 0x0A, 0, 0])) ∧
  rx [0x11, 0x04, 0x00, 0, 0] = some (.readInputRegisters (op [0x00, 0, 0])) ∧
  rx [0x11, 0x05, 0, 0xAC, 0xFF, 0, 0, 0] = some (.writeSingleCoil (op [0, 0xAC, 0xFF, 0, 0, 0])) ∧
  rx [0x11, 0x06, 0, 1, 0, 3, 0, 0] = some (.writeSingleRegister (op [0, 1, 0, 3, 0, 0])) ∧
  rx [0x11, 0x08, 0, 0, 0xA5, 0x37, 0, 0] = some (.diagnostics (op [0, 0, 0xA5, 0x37, 0, 0])) ∧
  rx [0x11, 0x0F, 0, 0x13, 0, 1, 0x01, 0xCD, 0, 0] = some (.writeMultipleCoils (op [0, 0x13, 0, 1, 0x01, 0xCD, 0, 0])) ∧
  rx [0x11, 0x10, 0, 1, 0, 1, 0x02, 0, 0x0A, 0, 0] = some (.writeMultipleRegisters (op [0, 1, 0, 1, 0x02, 0, 0x0A, 0, 0])) ∧
  rx [0x11, 0x07, 0, 0, 0, 0, 0, 0] = some (.unknownFunction 0x07 (op [0, 0, 0, 0, 0, 0])) ∧
  (decodeFrame .ascii ⟨.send, [0x3A, 0x31, 0x31, 0x30, 0x31, 0x65, 0x45, 0x0D, 0x0A], 4⟩).toOption =
    some (.readCoils ⟨.ascii [0x31, 0x31, 0x30, 0x31, 0x65, 0x45], .send, 0x11, [0xEE], 4⟩)

/-- Rule R57, the classes of the function-code decode. -/
def Obligations.FunctionCodesFallIntoTheirClass : Prop :=
  (∀ fc : Byte, 0x80 ≤ fc.toNat → classOf fc = .exceptionResponse) ∧
  classOf 0x01 = .readCoils ∧ classOf 0x02 = .readDiscreteInputs ∧
  classOf 0x03 = .readHoldingRegisters ∧ classOf 0x04 = .readInputRegisters ∧
  classOf 0x05 = .writeSingleCoil ∧ classOf 0x06 = .writeSingleRegister ∧ classOf 0x08 = .diagnostics ∧
  classOf 0x0F = .writeMultipleCoils ∧ classOf 0x10 = .writeMultipleRegisters ∧
  (∀ fc : Byte, fc.toNat < 0x80 → fc.toNat ∉ [0x01, 0x02, 0x03, 0x04, 0x05, 0x06, 0x08, 0x0F, 0x10] →
    classOf fc = .unknownFunction)

/-! ### The machine's step -/

/-- The step runs the instruction that the instance the host names reads in the issue, by its TRANSPORT, and takes exactly that move from the script (rules R12, R50, R60; the script is the model's: log entry 1). -/
def Obligations.StepRunsTheDecodedInstruction : Prop :=
  ∀ (s : State) (I : Inst) (k : Nat) (w : Issue) (rest : List HostMove) (i : Instr),
    s.script = .issue k w :: rest → Addressed { s with script := rest, sel := k } I →
    decode I.transport w = .ok i → i.wf = true →
      step s = exec i { s with script := rest, sel := k }

/-- The host's moves that are no instruction (rules R116, R117, R124, R139): creation gives the values of rule R25 under the next number and nothing but the three parameters of rule R124 comes with it, teardown removes the instance with what it buffered, two commands at once are refused, and with no move the machine waits. That the machine waits, that bytes which are no frame on the instance's wire are refused, that an issue to a missing instance stops, and that the script holds the moves, is the model's choice (log entries 1, 15, 16, 17, 21). -/
def Obligations.HostMovesOpenAndCloseInstances : Prop :=
  ∀ (s : State) (rest : List HostMove),
    (∀ p, s.script = .create p :: rest → ∃ t : Int,
      step s = .next { s with
        script := rest
        fresh := s.fresh + 1
        insts := s.insts ++ [some { transport := p.transport, buf := [], lastT := t, timeout := p.timeoutMs, cap := p.cap, resetTimeout := p.timeoutMs }] }) ∧
    (∀ k, s.script = .teardown k :: rest → step s = .next { s with script := rest, insts := s.insts.set k none }) ∧
    (∀ k a b, s.script = .overlap k a b :: rest → step s = .refused .concurrentCommands) ∧
    (∀ k w I e, s.script = .issue k w :: rest → Addressed { s with script := rest, sel := k } I →
      decode I.transport w = .error e → step s = .refused (.badFrame e)) ∧
    (∀ k w, s.script = .issue k w :: rest → ({ s with script := rest, sel := k } : State).live = none →
      step s = .fault .noInstance) ∧
    (s.script = [] → step s = .next s)

/-- After reset (rule R25) every instance has an empty buffer, the open timeout parameter of its transport and the decided cap; the block has the default exception-code table (rule R58). That there is one instance of each transport, and that LAST_T is 0, is the model's choice (log entries 4 and 5). -/
def Obligations.ResetStateHoldsTheCreationValues : Prop :=
  State.reset.insts =
    [some { transport := .rtu, buf := [], lastT := 0, timeout := Config.rtuTimeoutMs, cap := 264, resetTimeout := Config.rtuTimeoutMs },
     some { transport := .ascii, buf := [], lastT := 0, timeout := Config.asciiTimeoutMs, cap := 513, resetTimeout := Config.asciiTimeoutMs }] ∧
  State.reset.excTable = defaultExcTable ∧ State.reset.script = [] ∧ State.reset.results = []

/-- The invariant holds right after reset. -/
def Obligations.ResetStateIsOk : Prop := stateOk State.reset = true

/-- From EVERY state that meets it, each step keeps the invariant: every buffer at a fixed point of its framer's extraction and not above CAP (rules R16, R82, R94, R121), every Frame the host was handed as rule R20 says. -/
def Obligations.StepKeepsTheStateOk : Prop :=
  ∀ s s' : State, stateOk s = true → step s = .next s' → stateOk s' = true

/-! ### Control commands -/

/-- Rule R118: RESET empties BUF, puts the timeout parameter back, lets LAST_T be some integer, and answers ok. -/
def Obligations.ResetCommandRestoresTheCreationState : Prop :=
  ∀ (s : State) (I : Inst), Addressed s I → ∃ t : Int,
    exec .reset s = .next { afterOp s { I with buf := [], timeout := I.resetTimeout, lastT := t } .ok with fresh := s.fresh + 1 }

/-- Rule R119: SET_TIMEOUT writes TIMEOUT and nothing else, and answers ok. -/
def Obligations.SetTimeoutWritesTimeoutOnly : Prop :=
  ∀ (s : State) (I : Inst) (v : Nat), Addressed s I →
    exec (.setTimeout v) s = .next (afterOp s { I with timeout := v } .ok)

/-- Rule R120: FLUSH runs the stale pass on every instance and nothing else: LAST_T is not written, the overflow bit is false. -/
def Obligations.FlushRunsTheStalePass : Prop :=
  ∀ (s : State) (I : Inst) (now : Int), Addressed s I →
    exec (.flush now) s = .next
      (if I.buf ≠ [] ∧ now - I.lastT > (I.timeout : Int)
        then afterOp s { I with buf := [] } (.frames (extract s.excTable I.transport I.buf now).1 false)
        else afterOp s I (.frames [] false))

/-- Corner cases (a), (b) and (c) of rule R120 (derived in the spec), on an instance whose buffer waits (the invariant StepKeepsTheStateOk): no Frame; a buffer that is not stale is left alone; and an RX that follows at an equal or later time finds no difference. -/
def Obligations.FlushOnlyDiscards : Prop :=
  (∀ (s : State) (I : Inst) (now : Int), Addressed s I → bufWaits I.transport I.buf = true →
    exec (.flush now) s = .next
      (if I.buf ≠ [] ∧ now - I.lastT > (I.timeout : Int)
        then afterOp s { I with buf := [] } (.frames [] false)
        else afterOp s I (.frames [] false))) ∧
  (∀ (tbl : ExcTable) (I : Inst) (xs : List Byte) (t t' : Int), bufWaits I.transport I.buf = true → t ≤ t' →
    recvIngest tbl (stalePass tbl I t).2 xs t' = recvIngest tbl I xs t')

/-- Rule R123: an illegal word answers ILLEGAL and changes no instance field, as an instruction and as the word the host issues. -/
def Obligations.IllegalWordChangesNothing : Prop :=
  (∀ (s : State) (I : Inst) (w : Byte), Addressed s I → exec (.illegal w) s = .next (afterOp s I .illegal)) ∧
  (∀ (s : State) (I : Inst) (k : Nat) (c : Command) (rest : List HostMove),
    s.script = .issue k (.command c) :: rest → legalWord c.word = false →
    Addressed { s with script := rest, sel := k } I →
      step s = .next (afterOp { s with script := rest, sel := k } I .illegal))

/-! ### The Checksum Engine -/

/-- Rules R63 and R64: the CRC-16 of the operand, its passes written out. -/
def Obligations.Crc16FoldsTheBytes : Prop :=
  ∀ (s : State) (I : Inst) (data : List Byte), Addressed s I →
    exec (.crc16 data) s = .next (afterOp s I (.crc
      (data.foldl (fun (acc : U16) (b : Byte) =>
        (fun a : U16 => if a.toNat % 2 = 1 then (a >>> 1) ^^^ 0xA001 else a >>> 1)^[8] (acc ^^^ b.setWidth 16)) 0xFFFF)))

/-- Rule R65: the LRC is the two's complement of the byte sum modulo 256. -/
def Obligations.LrcIsTheTwosComplementOfTheSum : Prop :=
  ∀ (s : State) (I : Inst) (data : List Byte), Addressed s I →
    exec (.lrc data) s = .next (afterOp s I (.lrc (-(data.foldl (· + ·) (0 : Byte)))))

/-- Rule R67 (derived in the spec): the CRC of a sequence followed by its own CRC, low byte first, is 0; and a receive frame of at least 4 bytes is valid exactly when the CRC over all of it is 0. -/
def Obligations.RtuFrameValidIffWholeCrcIsZero : Prop :=
  (∀ xs : List Byte, crc16 (xs ++ [(crc16 xs).setWidth 8, (crc16 xs >>> 8).setWidth 8]) = 0) ∧
  (∀ (tbl : ExcTable) (d : List Byte) (now : Int), 4 ≤ d.length → ((rtuFrameRx tbl d now).checksumValid = true ↔ crc16 d = 0))

/-- Rule R68 (derived in the spec): bytes and LRC sum to 0 modulo 256, and an ASCII receive Frame is valid exactly when all its content bytes do. -/
def Obligations.AsciiFrameValidIffWholeSumIsZero : Prop :=
  (∀ xs : List Byte, ((xs.map BitVec.toNat).sum + (lrc xs).toNat) % 256 = 0) ∧
  (∀ (tbl : ExcTable) (c raw : List Byte) (now : Int), 3 ≤ c.length →
    ((asciiFrame tbl c raw .receive now).checksumValid = true ↔ (c.map BitVec.toNat).sum % 256 = 0))

/-! ### The hex decoder -/

/-- Rules R54 and R87: `hexval` (the 22 hex characters and no other), the decode by index, the leading zero of an odd length, the rejection of a character outside the alphabet, and HEXDECODE's answer. -/
def Obligations.HexDecodePairsHighNibbleFirst : Prop :=
  (∀ ch : Byte, hexVal ch =
    (if ch.toNat ∈ List.range' 0x30 10 then some (ch.toNat - 0x30)
      else if ch.toNat ∈ List.range' 0x41 6 then some (ch.toNat - 0x41 + 10)
      else if ch.toNat ∈ List.range' 0x61 6 then some (ch.toNat - 0x61 + 10)
      else none)) ∧
  (∀ (s : State) (I : Inst) (cs : List Byte), Addressed s I →
    exec (.hexDecode cs) s = .next (afterOp s I (.bytes (hexDecode cs)))) ∧
  (∀ cs : List Byte, cs.length % 2 = 1 → hexDecode cs = hexDecode (0x30 :: cs)) ∧
  (∀ cs : List Byte, (∃ ch ∈ cs, hexVal ch = none) → hexDecode cs = none) ∧
  (∀ cs : List Byte, cs.length % 2 = 0 → (∀ ch ∈ cs, hexVal ch ≠ none) →
    hexDecode cs = some ((List.range (cs.length / 2)).map fun i =>
      BitVec.ofNat 8 ((hexVal (cs.getD (2 * i) 0)).getD 0 * 16 + (hexVal (cs.getD (2 * i + 1) 0)).getD 0)))

/-- Rule R88 (derived in the spec): decoding undoes encoding, and a decoded text has half its length in bytes, rounded up. -/
def Obligations.HexDecodeUndoesHexEncode : Prop :=
  (∀ bs : List Byte, hexDecode (hexEncode bs) = some bs) ∧
  (∀ cs bs : List Byte, hexDecode cs = some bs → bs.length = (cs.length + 1) / 2)

/-! ### The interpreter -/

/-- Rules R97, R102-R106: INTERPRET of the four read codes, payload by payload index. -/
def Obligations.InterpretReads : Prop :=
  ∀ (s : State) (I : Inst) (p : List Byte), Addressed s I →
    exec (.interpret 0x01 p) s = .next (afterOp s I (.payload (bitReadOf p))) ∧
    exec (.interpret 0x02 p) s = .next (afterOp s I (.payload (bitReadOf p))) ∧
    exec (.interpret 0x03 p) s = .next (afterOp s I (.payload (registerReadOf p))) ∧
    exec (.interpret 0x04 p) s = .next (afterOp s I (.payload (registerReadOf p)))

/-- Rules R107, R108, R111: INTERPRET of the two single writes and of diagnostics. -/
def Obligations.InterpretSingleWritesAndDiagnostics : Prop :=
  ∀ (s : State) (I : Inst) (p : List Byte), Addressed s I →
    exec (.interpret 0x05 p) s = .next (afterOp s I (.payload (coilWriteOf p))) ∧
    exec (.interpret 0x06 p) s = .next (afterOp s I (.payload (registerWriteOf p))) ∧
    exec (.interpret 0x08 p) s = .next (afterOp s I (.payload (diagnosticsOf p)))

/-- Rules R109 and R110: INTERPRET of the two multiple writes; the coil bits are unpacked least significant first, the register values big-endian. -/
def Obligations.InterpretMultipleWrites : Prop :=
  ∀ (s : State) (I : Inst) (p : List Byte), Addressed s I →
    exec (.interpret 0x0F p) s = .next (afterOp s I (.payload (multiWriteOf p (.bits (bitsAt (countedData p 4)))))) ∧
    exec (.interpret 0x10 p) s = .next (afterOp s I (.payload (multiWriteOf p (.regs (regsAt (countedData p 4))))))

/-- Rule R112: INTERPRET of every other code, the exception codes among them, is `none`. -/
def Obligations.InterpretOfOtherCodesIsNone : Prop :=
  ∀ (s : State) (I : Inst) (fc : Byte) (p : List Byte), Addressed s I →
    fc.toNat ∉ [0x01, 0x02, 0x03, 0x04, 0x05, 0x06, 0x08, 0x0F, 0x10] →
      exec (.interpret fc p) s = .next (afterOp s I (.payload none))

/-- Rules R33 and R56: element `8j + k` of the bit sequence is bit `k` of byte `j`, and there are 8 a byte. -/
def Obligations.PackedBitsAreLsbFirst : Prop :=
  ∀ bs : List Byte, (bitsLSB bs).length = 8 * bs.length ∧
    ∀ j k : Nat, j < bs.length → k < 8 →
      (bitsLSB bs)[8 * j + k]? = some (decide (((bs.getD j 0).toNat / 2 ^ k) % 2 = 1))

/-- Rules R58 and R113: EXCMSG answers what the block's table says of the code, `UNKNOWN_ERROR` for a code it does not list, whatever the table; and the default table. The code values of the default but 0x02 are the spec's own, from general knowledge (93_implementation_defined G1; log entry 10). That the table stands in the state is the model's choice (log entry 29). -/
def Obligations.ExceptionMessageTable : Prop :=
  (∀ (s : State) (I : Inst) (code : Byte), Addressed s I →
    exec (.excMsg code) s = .next (afterOp s I (.msg (excMsg s.excTable code)))) ∧
  (∀ (before after : ExcTable) (code : Byte) (m : Msg), (∀ e ∈ before, e.1 ≠ code) →
    excMsg (before ++ (code, m) :: after) code = m) ∧
  (∀ (tbl : ExcTable) (code : Byte), (∀ e ∈ tbl, e.1 ≠ code) → excMsg tbl code = .unknownError) ∧
  (let msg := excMsg defaultExcTable
  msg 0x01 = .illegalFunction ∧ msg 0x02 = .illegalDataAddress ∧ msg 0x03 = .illegalDataValue ∧
  msg 0x04 = .slaveDeviceFailure ∧ msg 0x05 = .acknowledge ∧ msg 0x06 = .slaveDeviceBusy ∧
  msg 0x07 = .negativeAcknowledge ∧ msg 0x08 = .memoryParityError ∧
  msg 0x0A = .gatewayPathUnavailable ∧ msg 0x0B = .gatewayTargetFailed ∧
  (∀ code : Byte, code.toNat = 0x00 ∨ code.toNat = 0x09 ∨ 0x0C ≤ code.toNat → msg code = .unknownError))

/-- Rule R21: the display strings of the eleven messages. -/
def Obligations.MessageDisplayStrings : Prop :=
  msgText .illegalFunction = "Illegal Function" ∧ msgText .illegalDataAddress = "Illegal Data Address" ∧
  msgText .illegalDataValue = "Illegal Data Value" ∧ msgText .slaveDeviceFailure = "Slave Device Failure" ∧
  msgText .acknowledge = "Acknowledge" ∧ msgText .slaveDeviceBusy = "Slave Device Busy" ∧
  msgText .negativeAcknowledge = "Negative Acknowledge" ∧ msgText .memoryParityError = "Memory Parity Error" ∧
  msgText .gatewayPathUnavailable = "Gateway Path Unavailable" ∧
  msgText .gatewayTargetFailed = "Gateway Target Device Failed to Respond" ∧ msgText .unknownError = "Unknown Error"

/-! ### The length estimator -/

/-- Rules R69-R75: RTU_LEN, row by row. -/
def Obligations.RtuLengthRows : Prop :=
  ∀ (s : State) (I : Inst) (buf : List Byte), Addressed s I →
    ∃ e : Estimate, exec (.rtuLen buf) s = .next (afterOp s I (.length e)) ∧
      (buf.length < 4 → e = .undetermined) ∧
      (4 ≤ buf.length →
        (0x80 ≤ (buf.getD 1 0).toNat → e = .known 5) ∧
        ((buf.getD 1 0).toNat ∈ [0x01, 0x02, 0x03, 0x04] → e = .known (5 + (buf.getD 2 0).toNat)) ∧
        ((buf.getD 1 0).toNat ∈ [0x05, 0x06, 0x08] → e = .known 8) ∧
        ((buf.getD 1 0).toNat ∈ [0x0F, 0x10] → buf.length < 8 → e = .undetermined) ∧
        ((buf.getD 1 0).toNat ∈ [0x0F, 0x10] → 8 ≤ buf.length → e = .known (9 + (buf.getD 6 0).toNat)) ∧
        ((buf.getD 1 0).toNat < 0x80 →
          (buf.getD 1 0).toNat ∉ [0x01, 0x02, 0x03, 0x04, 0x05, 0x06, 0x08, 0x0F, 0x10] → e = .known 8))

/-- The bounds of rule R69 and the reason rule R85 gives (both derived in the spec): a known length is 5 to 264, and more bytes never change it. -/
def Obligations.KnownLengthIsBoundedAndStable : Prop :=
  ∀ (buf more : List Byte) (n : Nat), rtuLen buf = .known n → 5 ≤ n ∧ n ≤ 264 ∧ rtuLen (buf ++ more) = .known n

/-! ### Building Frames -/

/-- Rule R77 on a slice of at least 5 bytes: the fields it sets. -/
def Obligations.RtuReceiveFrameFields : Prop :=
  ∀ (tbl : ExcTable) (d : List Byte) (now : Int), 5 ≤ d.length →
    let f := rtuFrameRx tbl d now
    let n := d.length
    f.transport = .rtu ∧ f.direction = .receive ∧ f.raw = d ∧ f.data = d ∧
    f.slaveAddress = some (d.getD 0 0) ∧ f.functionCode = some (d.getD 1 0) ∧
    f.payload = (d.drop 2).take (n - 4) ∧
    f.checksumReceived = some (.crc (BitVec.ofNat 16 ((d.getD (n - 2) 0).toNat + 256 * (d.getD (n - 1) 0).toNat))) ∧
    f.checksumComputed = some (.crc (crc16 (d.take (n - 2)))) ∧
    (f.checksumValid = true ↔ f.checksumReceived = f.checksumComputed) ∧ f.timestamp = now ∧
    f = finish tbl f

/-- Rules R78 and R79: TX on an RTU instance emits exactly one Frame of any operand, with these fields, and writes no instance field. -/
def Obligations.RtuSendEmitsOneFrame : Prop :=
  ∀ (s : State) (I : Inst) (xs : List Byte) (now : Int), Addressed s I → I.transport = .rtu →
    ∃ f : Frame, exec (.tx xs now) s = .next (afterOp s I (.frames [f] false)) ∧
      f.transport = .rtu ∧ f.direction = .send ∧ f.raw = xs ∧ f.data = xs ∧
      f.slaveAddress = (if 1 ≤ xs.length then some (xs.getD 0 0) else none) ∧
      f.functionCode = (if 2 ≤ xs.length then some (xs.getD 1 0) else none) ∧
      f.payload = (xs.drop 2).take (xs.length - 4) ∧
      f.checksumReceived = (if 4 ≤ xs.length then
        some (.crc (BitVec.ofNat 16 ((xs.getD (xs.length - 2) 0).toNat + 256 * (xs.getD (xs.length - 1) 0).toNat))) else none) ∧
      f.checksumComputed = (if 4 ≤ xs.length then some (.crc (crc16 (xs.take (xs.length - 2)))) else none) ∧
      f.checksumValid = decide (1 ≤ xs.length) ∧ f.timestamp = now ∧ f = finish s.excTable f

/-- Rule R95: the fields of an ASCII Frame of at least 3 content bytes. -/
def Obligations.AsciiFrameFields : Prop :=
  ∀ (tbl : ExcTable) (c raw : List Byte) (dir : Direction) (now : Int), 3 ≤ c.length →
    let f := asciiFrame tbl c raw dir now
    let k := c.length
    f.transport = .ascii ∧ f.direction = dir ∧ f.raw = raw ∧ f.data = c ∧
    f.slaveAddress = some (c.getD 0 0) ∧ f.functionCode = some (c.getD 1 0) ∧
    f.payload = (c.drop 2).take (k - 3) ∧
    f.checksumReceived = some (.lrc (c.getD (k - 1) 0)) ∧
    f.checksumComputed = some (.lrc (lrc (c.take (k - 1)))) ∧
    (f.checksumValid = true ↔ dir = .send ∨ f.checksumReceived = f.checksumComputed) ∧ f.timestamp = now ∧
    f = finish tbl f

/-- Rules R92 and R93: TX on an ASCII instance emits exactly one Frame and writes no instance field: the parsed one when the operand is delimited and decodes to at least 3 bytes, else the failure Frame of the stripped text. -/
def Obligations.AsciiSendEmitsOneFrame : Prop :=
  ∀ (s : State) (I : Inst) (xs : List Byte) (now : Int), Addressed s I → I.transport = .ascii →
    let n := xs.length
    let closed := 3 ≤ n ∧ xs.getD 0 0 = 0x3A ∧ xs.getD (n - 2) 0 = 0x0D ∧ xs.getD (n - 1) 0 = 0x0A
    let start := if 1 ≤ n ∧ xs.getD 0 0 = 0x3A then xs.drop 1 else xs
    let m := start.length
    let raw := if 2 ≤ m ∧ start.getD (m - 2) 0 = 0x0D ∧ start.getD (m - 1) 0 = 0x0A then start.take (m - 2) else start
    let failure : Frame :=
      { transport := .ascii, direction := .send, raw := raw, data := [], slaveAddress := none, functionCode := none,
        payload := [], checksumReceived := none, checksumComputed := none, checksumValid := false, isException := false,
        originalFunction := none, exceptionCode := none, exceptionMessage := none, interpreted := none, timestamp := now }
    (closed → raw = (xs.drop 1).take (n - 3)) ∧
    (∀ c, closed → hexDecode raw = some c → 3 ≤ c.length →
      exec (.tx xs now) s = .next (afterOp s I (.frames [asciiFrame s.excTable c raw .send now] false))) ∧
    (¬ closed ∨ hexDecode raw = none ∨ (∃ c, hexDecode raw = some c ∧ c.length < 3) →
      exec (.tx xs now) s = .next (afterOp s I (.frames [failure] false)))

/-- Rule R90: a receive candidate becomes a Frame exactly when the text between its delimiters decodes to at least 3 bytes. -/
def Obligations.AsciiCandidateBecomesAFrame : Prop :=
  ∀ (tbl : ExcTable) (inner : List Byte) (now : Int),
    asciiCandidateRx tbl (0x3A :: inner ++ [0x0D, 0x0A]) now =
      (match hexDecode inner with
        | none => none
        | some c => if c.length < 3 then none else some (asciiFrame tbl c inner .receive now))

/-- Rules R99-R101: what `finish` makes of a Frame's fields, and that it writes no other. -/
def Obligations.FinishSetsExceptionAndInterpreted : Prop :=
  ∀ (tbl : ExcTable) (f : Frame),
    let g := finish tbl f
    (g.isException = true ↔ ∃ fc, f.functionCode = some fc ∧ 0x80 ≤ fc.toNat) ∧
    g.originalFunction = (match f.functionCode with
      | some fc => if 0x80 ≤ fc.toNat then some (BitVec.ofNat 8 (fc.toNat - 0x80)) else none
      | none => none) ∧
    (g.isException = true → g.exceptionCode = f.payload.head? ∧ g.exceptionMessage = f.payload.head?.map (excMsg tbl)) ∧
    (g.isException = false → g.exceptionCode = none ∧ g.exceptionMessage = none) ∧
    g.interpreted = (match f.functionCode with
      | some fc => if g.isException = false ∧ f.checksumValid = true then interpret fc f.payload else none
      | none => none) ∧
    g = { f with
      isException := g.isException, originalFunction := g.originalFunction, exceptionCode := g.exceptionCode,
      exceptionMessage := g.exceptionMessage, interpreted := g.interpreted }

/-! ### Receiving -/

/-- Rule R81 with rules R80, R91 and R121: RX on every instance, of either transport. -/
def Obligations.ReceiveDiscipline : Prop :=
  ∀ (s : State) (I : Inst) (xs : List Byte) (now : Int), Addressed s I →
    let stale := I.buf ≠ [] ∧ now - I.lastT > (I.timeout : Int)
    let old := if stale then (extract s.excTable I.transport I.buf now).1 else []
    let kept := if stale then [] else I.buf
    let new := extract s.excTable I.transport (kept ++ xs) now
    let full := I.cap < new.2.length
    exec (.rx xs now) s = .next (afterOp s { I with buf := if full then [] else new.2, lastT := now }
      (.frames (old ++ new.1) (decide full)))

/-- Rule R76: the RTU extraction loop, one pass. -/
def Obligations.RtuExtractionLoop : Prop :=
  ∀ (tbl : ExcTable) (buf : List Byte) (now : Int),
    (buf.length < 4 → rtuExtract tbl buf now = ([], buf)) ∧
    (rtuLen buf = .undetermined → rtuExtract tbl buf now = ([], buf)) ∧
    (∀ n, rtuLen buf = .known n → buf.length < n → rtuExtract tbl buf now = ([], buf)) ∧
    (∀ n, rtuLen buf = .known n → n ≤ buf.length →
      rtuExtract tbl buf now =
        (rtuFrameRx tbl (buf.take n) now :: (rtuExtract tbl (buf.drop n) now).1, (rtuExtract tbl (buf.drop n) now).2))

/-- Rule R89: the ASCII extraction loop, one pass; `inner` runs to the FIRST CR LF after the first `:`. -/
def Obligations.AsciiExtractionLoop : Prop :=
  (∀ (tbl : ExcTable) (buf : List Byte) (now : Int), (0x3A : Byte) ∉ buf → asciiExtract tbl buf now = ([], [])) ∧
  (∀ (tbl : ExcTable) (junk text : List Byte) (now : Int), (0x3A : Byte) ∉ junk → hasCrlf text = false →
    asciiExtract tbl (junk ++ 0x3A :: text) now = ([], 0x3A :: text)) ∧
  (∀ (tbl : ExcTable) (junk inner rest : List Byte) (now : Int), (0x3A : Byte) ∉ junk → hasCrlf (inner ++ [0x0D]) = false →
    asciiExtract tbl (junk ++ 0x3A :: inner ++ 0x0D :: 0x0A :: rest) now =
      ((asciiCandidateRx tbl (0x3A :: inner ++ [0x0D, 0x0A]) now).toList ++ (asciiExtract tbl rest now).1, (asciiExtract tbl rest now).2))

/-- Rules R82 and R94 (derived in the spec): on an instance whose buffer waits, the stale pass of an RX emits nothing, and what an RX leaves waits again. -/
def Obligations.StalePassEmitsNothing : Prop :=
  ∀ (tbl : ExcTable) (I : Inst) (xs : List Byte) (now : Int), bufWaits I.transport I.buf = true →
    (stalePass tbl I now).1 = [] ∧
    (recvIngest tbl I xs now).2.1 = (extract tbl I.transport ((if isStale I now then [] else I.buf) ++ xs) now).1 ∧
    bufWaits (recvIngest tbl I xs now).1.transport (recvIngest tbl I xs now).1.buf = true

/-- Rule R83 (derived in the spec): every RTU receive Frame has 5 to 264 raw bytes, and the residual at most 263. -/
def Obligations.RtuFramesAndResidualAreBounded : Prop :=
  ∀ (tbl : ExcTable) (buf : List Byte) (now : Int),
    (∀ f ∈ (rtuExtract tbl buf now).1, 5 ≤ f.raw.length ∧ f.raw.length ≤ 264) ∧ (rtuExtract tbl buf now).2.length ≤ 263

/-- Rules R83 and R122 (derived in the spec): with the decided cap, no RX on an RTU instance ever reports an overflow. -/
def Obligations.RtuNeverOverflows : Prop :=
  ∀ (s : State) (I : Inst) (xs : List Byte) (now : Int), Addressed s I → I.transport = .rtu → I.cap = 264 →
    ∃ (J : Inst) (fs : List Frame), exec (.rx xs now) s = .next (afterOp s J (.frames fs false)) ∧ J.buf.length ≤ 263

/-- Rules R28 (derived in the spec) and R41: extraction reorders nothing. RTU: the Frames' bytes, in the order of emission, and after them the residual, are the buffer. ASCII: the Frames' texts with their delimiters stand in the buffer one after another in the order of emission, discarded bytes between them, and the residual after them at its end. -/
def Obligations.ExtractionKeepsTheByteOrder : Prop :=
  (∀ (tbl : ExcTable) (buf : List Byte) (now : Int),
    ((rtuExtract tbl buf now).1.map Frame.raw).flatten ++ (rtuExtract tbl buf now).2 = buf) ∧
  (∀ (tbl : ExcTable) (buf : List Byte) (now : Int),
    ∃ (gaps : List (List Byte)) (last : List Byte), gaps.length = (asciiExtract tbl buf now).1.length ∧
      (List.zipWith (fun gap f => gap ++ 0x3A :: f.raw ++ [0x0D, 0x0A]) gaps (asciiExtract tbl buf now).1).flatten
        ++ last ++ (asciiExtract tbl buf now).2 = buf)

/-- Rule R85 (derived in the spec): an RTU stream in fragments, no gap above TIMEOUT, gives the Frames of the same stream in one RX, but for their times, and leaves the same buffer. -/
def Obligations.RtuFragmentationDoesNotMatter : Prop :=
  ∀ (tbl : ExcTable) (I : Inst) (frags : List (List Byte × Int)) (t : Int),
    I.transport = .rtu → I.cap = 264 → bufWaits I.transport I.buf = true →
    gapsWithin I.timeout I.lastT frags = true → t - I.lastT ≤ (I.timeout : Int) →
      (rxAll tbl I frags).2.1.map untimed = (recvIngest tbl I (frags.flatMap Prod.fst) t).2.1.map untimed ∧
      (rxAll tbl I frags).1.buf = (recvIngest tbl I (frags.flatMap Prod.fst) t).1.buf

/-- Rules R85 and R94 (c) (derived in the spec): the same for either transport while the residual never exceeds CAP. -/
def Obligations.FragmentationDoesNotMatterBelowTheCap : Prop :=
  ∀ (tbl : ExcTable) (I : Inst) (frags : List (List Byte × Int)) (t : Int),
    bufWaits I.transport I.buf = true → I.buf.length ≤ I.cap →
    gapsWithin I.timeout I.lastT frags = true → t - I.lastT ≤ (I.timeout : Int) →
    (rxAll tbl I frags).2.2 = false →
      (rxAll tbl I frags).2.1.map untimed = (recvIngest tbl I (frags.flatMap Prod.fst) t).2.1.map untimed ∧
      (rxAll tbl I frags).1.buf = (recvIngest tbl I (frags.flatMap Prod.fst) t).1.buf ∧
      (recvIngest tbl I (frags.flatMap Prod.fst) t).2.2 = false

/-- The round trip of 90_conflicts C5 for RTU: a frame whose length is its row's and whose trailing bytes are its CRC, received on an empty buffer, gives exactly one Frame, valid, with `interpreted` populated for a recognized function code, and an empty buffer. -/
def Obligations.RtuRoundTrip : Prop :=
  ∀ (tbl : ExcTable) (I : Inst) (content : List Byte) (now : Int),
    I.transport = .rtu → I.buf = [] →
    rtuLen (content ++ [(crc16 content).setWidth 8, (crc16 content >>> 8).setWidth 8]) = .known (content.length + 2) →
      ∃ f : Frame,
        recvIngest tbl I (content ++ [(crc16 content).setWidth 8, (crc16 content >>> 8).setWidth 8]) now =
          ({ I with lastT := now }, [f], false) ∧
        f.checksumValid = true ∧ f.data = content ++ [(crc16 content).setWidth 8, (crc16 content >>> 8).setWidth 8] ∧
        f.slaveAddress = some (content.getD 0 0) ∧ f.functionCode = some (content.getD 1 0) ∧ f.payload = content.drop 2 ∧
        ((content.getD 1 0).toNat ∈ [0x01, 0x02, 0x03, 0x04, 0x05, 0x06, 0x08, 0x0F, 0x10] →
          f.interpreted = interpret (content.getD 1 0) (content.drop 2) ∧ f.interpreted ≠ none)

/-- The round trip of 90_conflicts C5 for ASCII: content with its LRC, as uppercase hex between the delimiters, received on an empty buffer. For a recognized function code `interpreted` is the decode of the payload, which is `none` only for a payload too short for the code (rule R98). -/
def Obligations.AsciiRoundTrip : Prop :=
  ∀ (tbl : ExcTable) (I : Inst) (content : List Byte) (now : Int),
    I.transport = .ascii → I.buf = [] → 2 ≤ content.length →
      ∃ f : Frame,
        recvIngest tbl I (0x3A :: hexEncode (content ++ [lrc content]) ++ [0x0D, 0x0A]) now = ({ I with lastT := now }, [f], false) ∧
        f.checksumValid = true ∧ f.data = content ++ [lrc content] ∧
        f.slaveAddress = some (content.getD 0 0) ∧ f.functionCode = some (content.getD 1 0) ∧ f.payload = content.drop 2 ∧
        ((content.getD 1 0).toNat ∈ [0x01, 0x02, 0x03, 0x04, 0x05, 0x06, 0x08, 0x0F, 0x10] →
          f.interpreted = interpret (content.getD 1 0) (content.drop 2) ∧
          (f.interpreted = none ↔ f.payload.length < (if (content.getD 1 0).toNat ≤ 0x04 then 1 else 4)))

/-- Rules R62 and R144 (derived in the spec): on a waiting buffer that is not stale, an RX without data refreshes LAST_T and keeps the buffer; a FLUSH keeps both. -/
def Obligations.EmptyReceiveRefreshesTheTime : Prop :=
  ∀ (s : State) (I : Inst) (now : Int), Addressed s I → instOk I = true → isStale I now = false →
    exec (.rx [] now) s = .next (afterOp s { I with lastT := now } (.frames [] false)) ∧
    exec (.flush now) s = .next (afterOp s I (.frames [] false))

/-- Rule R20: every Frame that RX, TX or FLUSH emits, of whatever instance: (a) its least length, (b) when it is interpreted, (c) when it has an exception code. -/
def Obligations.EmittedFramesKeepTheInvariants : Prop :=
  ∀ (i : Instr) (s s' : State) (fs : List Frame) (ovf : Bool),
    ((∃ xs t, i = .rx xs t) ∨ (∃ xs t, i = .tx xs t) ∨ (∃ t, i = .flush t)) →
    exec i s = .next s' → s'.results = s.results ++ [(s.sel, .frames fs ovf)] →
      ∀ f ∈ fs,
        (f.direction = .receive → f.transport = .rtu → 4 ≤ f.data.length) ∧
        (f.direction = .receive → f.transport = .ascii → 3 ≤ f.data.length) ∧
        (f.interpreted ≠ none ↔ f.isException = false ∧ f.checksumValid = true ∧
          ∃ fc, f.functionCode = some fc ∧
            ((fc.toNat ∈ [0x01, 0x02, 0x03, 0x04] ∧ 1 ≤ f.payload.length) ∨
              (fc.toNat ∈ [0x05, 0x06, 0x08, 0x0F, 0x10] ∧ 4 ≤ f.payload.length))) ∧
        (f.exceptionCode ≠ none ↔ f.isException = true ∧ f.payload ≠ [])

/-- Rule R26 (derived in the spec): with an empty buffer nothing the host observes depends on LAST_T. Two instances of one block's table that differ in it alone answer alike, and differ after in LAST_T alone, and only while the buffer stays empty. -/
def Obligations.UnspecifiedTimeIsNeverObserved : Prop :=
  ∀ (i : Instr) (s₁ s₂ : State) (I : Inst) (t : Int),
    Addressed s₁ I → Addressed s₂ { I with lastT := t } → I.buf = [] →
    s₁.results = s₂.results → s₁.sel = s₂.sel → s₁.fresh = s₂.fresh → s₁.excTable = s₂.excTable →
      ∃ (s₁' s₂' : State) (J : Inst) (u : Int),
        exec i s₁ = .next s₁' ∧ exec i s₂ = .next s₂' ∧ s₁'.results = s₂'.results ∧
        Addressed s₁' J ∧ Addressed s₂' { J with lastT := u } ∧ (J.lastT = u ∨ J.buf = [])

/-! ### The function-code rows -/

/-- Rules R19, R57 and R99: each of the eleven function-code rows emits exactly the finished Frame that the addressed instance's framer builds of the same frame, by its TRANSPORT, and writes no instance field. (The row as an instruction of its own, and the characters of a frame that was not read off an ASCII wire, are the model's: log entries 12 and 30.) -/
def Obligations.FunctionRowsEmitTheFinishedFrame : Prop :=
  ∀ (s : State) (I : Inst) (fc : Byte) (w : FnFrame), Addressed s I →
    exec (fnInstr fc w) s = .next (afterOp s I (.frames
      [match I.transport, w.direction with
        | .rtu, .receive => rtuFrameRx s.excTable (w.content fc) w.now
        | .rtu, .send => rtuFrameTx s.excTable (w.content fc) w.now
        | .ascii, dir => asciiFrame s.excTable (w.content fc) (fnText w fc) dir w.now] false))

/-- Rules R19 and R103-R111: the Frame of each recognized row has the instance's TRANSPORT and carries that row's decode of its payload exactly when its checksum is valid (the row as an instruction is the model's: log entry 12). -/
def Obligations.FunctionRowsDecodeTheirPayload : Prop :=
  ∀ (s : State) (I : Inst) (w : FnFrame), Addressed s I →
    let emits := fun (i : Instr) (fc : Byte) (decodeOf : List Byte → Option InterpretedPayload) =>
      ∃ f : Frame, exec i s = .next (afterOp s I (.frames [f] false)) ∧ f.transport = I.transport ∧
        f.functionCode = some fc ∧ f.data = w.content fc ∧ f.isException = false ∧
        f.interpreted = (if f.checksumValid then decodeOf f.payload else none)
    emits (.readCoils w) 0x01 bitReadOf ∧ emits (.readDiscreteInputs w) 0x02 bitReadOf ∧
    emits (.readHoldingRegisters w) 0x03 registerReadOf ∧ emits (.readInputRegisters w) 0x04 registerReadOf ∧
    emits (.writeSingleCoil w) 0x05 coilWriteOf ∧ emits (.writeSingleRegister w) 0x06 registerWriteOf ∧
    emits (.diagnostics w) 0x08 diagnosticsOf ∧
    emits (.writeMultipleCoils w) 0x0F (fun p => multiWriteOf p (.bits (bitsAt (countedData p 4)))) ∧
    emits (.writeMultipleRegisters w) 0x10 (fun p => multiWriteOf p (.regs (regsAt (countedData p 4))))

/-- Rules R19, R100, R112 and R114: the exception row has its exception fields whatever its checksum and is never interpreted; the unknown row is neither; both have the instance's TRANSPORT (rows as instructions: log entry 12). -/
def Obligations.ExceptionAndUnknownRows : Prop :=
  ∀ (s : State) (I : Inst) (w : FnFrame), Addressed s I →
    (∀ original : BitVec 7, ∃ f : Frame,
      exec (.exceptionResponse original w) s = .next (afterOp s I (.frames [f] false)) ∧ f.transport = I.transport ∧
      f.functionCode = some (BitVec.ofNat 8 (0x80 + original.toNat)) ∧ f.isException = true ∧
      f.originalFunction = some (original.setWidth 8) ∧ f.exceptionCode = f.payload.head? ∧
      f.exceptionMessage = f.exceptionCode.map (excMsg s.excTable) ∧ f.interpreted = none) ∧
    (∀ fc : Byte, ∃ f : Frame,
      exec (.unknownFunction fc w) s = .next (afterOp s I (.frames [f] false)) ∧ f.transport = I.transport ∧
      f.functionCode = some fc ∧ f.data = w.content fc ∧ f.isException = false ∧ f.exceptionCode = none ∧ f.interpreted = none)

/-! ### Frames: what an instruction leaves alone -/

/-- The frame of all instructions: a next state keeps `sel`, `script`, the exception-code table and every other instance, appends exactly one result, and counts a free value only for RESET (rules R12, R24, R37, R40). And no step, a creation or any other host move among them, writes the table (rule R43). -/
def Obligations.OnlyTheAddressedInstanceChanges : Prop :=
  (∀ (i : Instr) (s s' : State), exec i s = .next s' →
    s'.sel = s.sel ∧ s'.script = s.script ∧ s'.excTable = s.excTable ∧ s'.insts.length = s.insts.length ∧
    (∀ k : Nat, k ≠ s.sel → s'.insts[k]? = s.insts[k]?) ∧
    (∃ r : Result, s'.results = s.results ++ [(s.sel, r)]) ∧
    s'.fresh = (if i = .reset then s.fresh + 1 else s.fresh)) ∧
  (∀ s s' : State, step s = .next s' → s'.excTable = s.excTable)

/-- The writers of each field of the addressed instance (rule R16, column "written by"; rules R37 and R134): TRANSPORT, CAP and the timeout parameter no instruction; TIMEOUT only SET_TIMEOUT and RESET; LAST_T only RX and RESET; BUF only RX, FLUSH and RESET. -/
def Obligations.FieldsHaveTheirWriters : Prop :=
  ∀ (i : Instr) (s s' : State) (I : Inst), Addressed s I → exec i s = .next s' →
    ∃ J : Inst, Addressed s' J ∧ J.transport = I.transport ∧ J.cap = I.cap ∧ J.resetTimeout = I.resetTimeout ∧
      ((∀ v, i ≠ .setTimeout v) → i ≠ .reset → J.timeout = I.timeout) ∧
      ((∀ xs t, i ≠ .rx xs t) → i ≠ .reset → J.lastT = I.lastT) ∧
      ((∀ xs t, i ≠ .rx xs t) → (∀ t, i ≠ .flush t) → i ≠ .reset → J.buf = I.buf)

/-- Isolation (rules R12, R24, R40): what an instruction answers and leaves depends on the addressed instance and the block's fixed table (rule R43) alone, not on another instance, not on the Frames already emitted, not on the host's script. -/
def Obligations.AnswerDependsOnTheAddressedInstanceAlone : Prop :=
  ∀ (i : Instr) (s₁ s₂ s₁' : State), s₁.live = s₂.live → s₁.excTable = s₂.excTable → s₁.fresh = s₂.fresh → exec i s₁ = .next s₁' →
    ∃ s₂' : State, exec i s₂ = .next s₂' ∧ s₁'.live = s₂'.live ∧
      ∃ r : Result, s₁'.results = s₁.results ++ [(s₁.sel, r)] ∧ s₂'.results = s₂.results ++ [(s₂.sel, r)]

/-- Every instruction completes on an instance that exists, and none does on one that does not ("after teardown the instance takes no further command", rule R117; that it stops with a fault is the model's: log entry 16). -/
def Obligations.InstructionsCompleteExactlyOnLiveInstances : Prop :=
  ∀ (i : Instr) (s : State),
    ((∃ I, Addressed s I) → ∃ s', exec i s = .next s') ∧ (s.live = none → exec i s = .fault .noInstance)

/-! ### Conditions and text -/

/-- Rule R125, all nine conditions over all instructions: which instruction raises each and on what cause, and the numbers of the table. That conditions are a function of instruction and instance, and that a function-code row raises what the RX or TX that carries its frame raises, is the model's reading (log entry 24); that an ASCII TX of text without its delimiters raises condition 3, whatever the text, is the model's choice (log entry 31). -/
def Obligations.ConditionsHaveTheirCauses : Prop :=
  (∀ (tbl : ExcTable) (i : Instr) (I : Inst),
    (.wait ∈ conditions tbl i I ↔ ∃ xs t, i = .rx xs t ∧ (recvIngest tbl I xs t).1.buf ≠ []) ∧
    (.staleDiscard ∈ conditions tbl i I ↔ ∃ t, ((∃ xs, i = .rx xs t) ∨ i = .flush t) ∧ I.buf ≠ [] ∧ t - I.lastT > (I.timeout : Int)) ∧
    (.checksumMismatch ∈ conditions tbl i I ↔ ∃ f, Emits tbl i I f ∧ f.direction = .receive ∧ f.checksumValid = false) ∧
    (.malformedAscii ∈ conditions tbl i I ↔ I.transport = .ascii ∧
      ((∃ xs t f, i = .tx xs t ∧ Emits tbl i I f ∧ f.checksumValid = false) ∨
        (∃ t, ((∃ xs, i = .rx xs t) ∨ i = .flush t) ∧ isStale I t = true ∧ dropsCandidate I.buf) ∨
        (∃ xs t, i = .rx xs t ∧ dropsCandidate ((if isStale I t then [] else I.buf) ++ xs)))) ∧
    (.protocolException ∈ conditions tbl i I ↔ ∃ f, Emits tbl i I f ∧ ∃ fc, f.functionCode = some fc ∧ 0x80 ≤ fc.toNat) ∧
    (.unknownFunction ∈ conditions tbl i I ↔ ∃ f, Emits tbl i I f ∧ ∃ fc, f.functionCode = some fc ∧ fc.toNat < 0x80 ∧
      fc.toNat ∉ [0x01, 0x02, 0x03, 0x04, 0x05, 0x06, 0x08, 0x0F, 0x10]) ∧
    (.sendNoAddress ∈ conditions tbl i I ↔ I.transport = .rtu ∧ ∃ t, i = .tx [] t) ∧
    (.overflowDiscard ∈ conditions tbl i I ↔ ∃ xs t, i = .rx xs t ∧ (recvIngest tbl I xs t).2.2 = true) ∧
    (.illegalCommand ∈ conditions tbl i I ↔ ∃ w, i = .illegal w)) ∧
  [Condition.wait, .staleDiscard, .checksumMismatch, .malformedAscii, .protocolException, .unknownFunction, .sendNoAddress,
    .overflowDiscard, .illegalCommand].map conditionNumber = [0, 1, 2, 3, 4, 5, 6, 7, 8]

/-- Rule R61: one line of each kind, with a comment, an escape and an empty operand, stands for its command. That a `;` inside a quoted text starts no comment, that a time may be negative and that lowercase hex is read is the model's choice where R61 is silent (log entry 23). -/
def Obligations.TextLinesStandForTheirCommands : Prop :=
  assemble (charCodes "RESET") = some (encode .reset) ∧
  assemble (charCodes "SETTO 50") = some (encode (.setTimeout 50)) ∧
  assemble (charCodes "TX 9 \"hi;\\r\\n\"") = some (encode (.tx [0x68, 0x69, 0x3B, 0x0D, 0x0A] 9)) ∧
  assemble (charCodes "RX -1 01 0a ; text") = some (encode (.rx [0x01, 0x0A] (-1))) ∧
  assemble (charCodes "RX 40") = some (encode (.rx [] 40)) ∧
  assemble (charCodes "FLUSH 100") = some (encode (.flush 100)) ∧
  assemble (charCodes "CRC16 01") = some (encode (.crc16 [0x01])) ∧
  assemble (charCodes "LRC") = some (encode (.lrc [])) ∧
  assemble (charCodes "HEXDEC \"0A\"") = some (encode (.hexDecode [0x30, 0x41])) ∧
  assemble (charCodes "INTERP 05 00 AC") = some (encode (.interpret 0x05 [0x00, 0xAC])) ∧
  assemble (charCodes "EXCMSG 02") = some (encode (.excMsg 0x02)) ∧
  assemble (charCodes "RTULEN 01 80") = some (encode (.rtuLen [0x01, 0x80]))
end

