-- ==== Sys2Proof/Laws/Delimit.lean ====
section
/-! SUPPORT. The ASCII delimiters put on and taken off (rules R53, R92, R93), and what a frame put on the wire carries. -/

namespace Sys2Proof

open Machine

/-- A text that ends in CR LF passes the end test. -/
theorem endsCrlf_append (raw : List Byte) : endsCrlf (raw ++ [cr, lf]) = true := by
  simp [endsCrlf]

/-- Stripping a delimited text gives the text. -/
@[simp] theorem strip_delimit (raw : List Byte) : strip (delimit raw) = raw := by
  simp [strip, stripStart, delimit, stripEnd, endsCrlf_append]

/-- A text with its delimiters passes the delimiter test. -/
@[simp] theorem delimited_delimit (raw : List Byte) : delimited (delimit raw) = true := by
  have h : endsCrlf (delimit raw) = true := by simpa [delimit] using endsCrlf_append (colon :: raw)
  unfold delimited
  rw [h]
  simp [delimit]

/-- On an ASCII wire a well-formed frame's text is the hex text of its content. -/
theorem FnFrame.wf_ascii {raw body : List Byte} {dir : Direction} {addr fc : Byte} {now : Int}
    (h : FnFrame.wf ⟨.ascii raw, dir, addr, body, now⟩ fc = true) : hexDecode raw = some (addr :: fc :: body) := by
  cases dir <;> exact of_decide_eq_true (Bool.and_eq_true _ _ ▸ h).1

end Sys2Proof
end

