-- ==== Sys2Proof/Laws/State.lean ====
section
/-! SUPPORT. What each update of the state and of an instance leaves in each field. -/

namespace Sys2Proof.Machine

variable (tbl : ExcTable) (s : State) (I : Inst) (r : Result) (xs : List Byte) (now t : Int)

@[simp] theorem State.commit_insts : (s.commit I r).insts = s.insts.set s.sel (some I) := rfl
@[simp] theorem State.commit_excTable : (s.commit I r).excTable = s.excTable := rfl
@[simp] theorem State.commit_sel : (s.commit I r).sel = s.sel := rfl
@[simp] theorem State.commit_script : (s.commit I r).script = s.script := rfl
@[simp] theorem State.commit_results : (s.commit I r).results = s.results ++ [(s.sel, r)] := rfl
@[simp] theorem State.commit_fresh : (s.commit I r).fresh = s.fresh := rfl
@[simp] theorem State.useFree_insts : s.useFree.insts = s.insts := rfl
@[simp] theorem State.useFree_excTable : s.useFree.excTable = s.excTable := rfl
@[simp] theorem State.useFree_sel : s.useFree.sel = s.sel := rfl
@[simp] theorem State.useFree_script : s.useFree.script = s.script := rfl
@[simp] theorem State.useFree_results : s.useFree.results = s.results := rfl
@[simp] theorem State.useFree_fresh : s.useFree.fresh = s.fresh + 1 := rfl
@[simp] theorem State.useFree_live : s.useFree.live = s.live := rfl

@[simp] theorem appendBytes_transport : (appendBytes I xs now).transport = I.transport := rfl
@[simp] theorem appendBytes_buf : (appendBytes I xs now).buf = I.buf ++ xs := rfl
@[simp] theorem appendBytes_lastT : (appendBytes I xs now).lastT = now := rfl
@[simp] theorem appendBytes_timeout : (appendBytes I xs now).timeout = I.timeout := rfl
@[simp] theorem appendBytes_cap : (appendBytes I xs now).cap = I.cap := rfl
@[simp] theorem appendBytes_resetTimeout : (appendBytes I xs now).resetTimeout = I.resetTimeout := rfl
@[simp] theorem extractInst_transport : (extractInst tbl I now).2.transport = I.transport := rfl
@[simp] theorem extractInst_buf : (extractInst tbl I now).2.buf = (extract tbl I.transport I.buf now).2 := rfl
@[simp] theorem extractInst_lastT : (extractInst tbl I now).2.lastT = I.lastT := rfl
@[simp] theorem extractInst_timeout : (extractInst tbl I now).2.timeout = I.timeout := rfl
@[simp] theorem extractInst_cap : (extractInst tbl I now).2.cap = I.cap := rfl
@[simp] theorem extractInst_resetTimeout : (extractInst tbl I now).2.resetTimeout = I.resetTimeout := rfl
@[simp] theorem resetInst_transport : (resetInst I t).transport = I.transport := rfl
@[simp] theorem resetInst_buf : (resetInst I t).buf = [] := rfl
@[simp] theorem resetInst_lastT : (resetInst I t).lastT = t := rfl
@[simp] theorem resetInst_timeout : (resetInst I t).timeout = I.resetTimeout := rfl
@[simp] theorem resetInst_cap : (resetInst I t).cap = I.cap := rfl
@[simp] theorem resetInst_resetTimeout : (resetInst I t).resetTimeout = I.resetTimeout := rfl

/-- An addressed instance stands in the list of instances. -/
theorem State.sel_lt_of_live {s : State} {I : Inst} (h : s.live = some I) : s.sel < s.insts.length := by
  by_contra hn
  simp [State.live, List.getD, List.getElem?_eq_none (Nat.le_of_not_lt hn)] at h

/-- After an operation the addressed instance is the one it left. -/
@[simp] theorem State.live_commit {s : State} {J : Inst} (h : s.live = some J) (I : Inst) (r : Result) :
    (s.commit I r).live = some I := by
  simp [State.live, State.commit, List.getD, State.sel_lt_of_live h]

end Sys2Proof.Machine
end

