-- ==== Sys2Proof/Laws/Ops.lean ====
section
/-! SUPPORT. What each shared operation can do: the one way a meaning answers, the stale pass, the cap check, and the receive discipline. -/

namespace Sys2Proof.Machine

/-- A meaning answers a next state exactly when the addressed instance exists, and then only through `commit`. -/
theorem onInst_next {s s' : State} {f : Inst → Inst × Result} (h : onInst s f = .next s') :
    ∃ I, s.live = some I ∧ s' = s.commit (f I).1 (f I).2 := by
  unfold onInst at h
  split at h
  · cases h
  · rename_i I hI
    exact ⟨I, hI, (by simpa using h.symm)⟩

/-- With the addressed instance at hand a meaning completes. -/
theorem onInst_live {s : State} {I : Inst} (h : s.live = some I) (f : Inst → Inst × Result) :
    onInst s f = .next (s.commit (f I).1 (f I).2) := by
  simp [onInst, h]

/-- Without it, a meaning stops. -/
theorem onInst_none {s : State} (h : s.live = none) (f : Inst → Inst × Result) : onInst s f = .fault .noInstance := by
  simp [onInst, h]

/-- A query with the addressed instance at hand. -/
theorem answer_live {s : State} {I : Inst} (h : s.live = some I) (r : Result) :
    answer s r = .next (s.commit I r) := onInst_live h _

/-- The stale test of rule R81 in the integers. -/
theorem isStale_iff (I : Inst) (now : Int) :
    isStale I now = true ↔ I.buf ≠ [] ∧ now - I.lastT > (I.timeout : Int) := by
  simp [isStale]

/-- The stale pass either fires and empties the buffer, or does nothing. -/
theorem stalePass_cases (tbl : ExcTable) (I : Inst) (now : Int) :
    (isStale I now = true ∧ stalePass tbl I now = ((extract tbl I.transport I.buf now).1, { I with buf := [] })) ∨
      (isStale I now = false ∧ stalePass tbl I now = ([], I)) := by
  unfold stalePass
  cases h : isStale I now <;> simp

/-- The cap check either discards a residual above `CAP`, or does nothing. -/
theorem capCheck_cases (I : Inst) :
    (I.cap < I.buf.length ∧ capCheck I = (true, { I with buf := [] })) ∨
      (I.buf.length ≤ I.cap ∧ capCheck I = (false, I)) := by
  unfold capCheck
  split
  · left; exact ⟨‹_›, rfl⟩
  · right; exact ⟨by omega, rfl⟩

@[simp] theorem stalePass_transport (tbl : ExcTable) (I : Inst) (now : Int) : (stalePass tbl I now).2.transport = I.transport := by
  rcases stalePass_cases tbl I now with ⟨-, h⟩ | ⟨-, h⟩ <;> rw [h]
@[simp] theorem stalePass_lastT (tbl : ExcTable) (I : Inst) (now : Int) : (stalePass tbl I now).2.lastT = I.lastT := by
  rcases stalePass_cases tbl I now with ⟨-, h⟩ | ⟨-, h⟩ <;> rw [h]
@[simp] theorem stalePass_timeout (tbl : ExcTable) (I : Inst) (now : Int) : (stalePass tbl I now).2.timeout = I.timeout := by
  rcases stalePass_cases tbl I now with ⟨-, h⟩ | ⟨-, h⟩ <;> rw [h]
@[simp] theorem stalePass_cap (tbl : ExcTable) (I : Inst) (now : Int) : (stalePass tbl I now).2.cap = I.cap := by
  rcases stalePass_cases tbl I now with ⟨-, h⟩ | ⟨-, h⟩ <;> rw [h]
@[simp] theorem stalePass_resetTimeout (tbl : ExcTable) (I : Inst) (now : Int) : (stalePass tbl I now).2.resetTimeout = I.resetTimeout := by
  rcases stalePass_cases tbl I now with ⟨-, h⟩ | ⟨-, h⟩ <;> rw [h]

@[simp] theorem capCheck_transport (I : Inst) : (capCheck I).2.transport = I.transport := by
  rcases capCheck_cases I with ⟨-, h⟩ | ⟨-, h⟩ <;> rw [h]
@[simp] theorem capCheck_lastT (I : Inst) : (capCheck I).2.lastT = I.lastT := by
  rcases capCheck_cases I with ⟨-, h⟩ | ⟨-, h⟩ <;> rw [h]
@[simp] theorem capCheck_timeout (I : Inst) : (capCheck I).2.timeout = I.timeout := by
  rcases capCheck_cases I with ⟨-, h⟩ | ⟨-, h⟩ <;> rw [h]
@[simp] theorem capCheck_cap (I : Inst) : (capCheck I).2.cap = I.cap := by
  rcases capCheck_cases I with ⟨-, h⟩ | ⟨-, h⟩ <;> rw [h]
@[simp] theorem capCheck_resetTimeout (I : Inst) : (capCheck I).2.resetTimeout = I.resetTimeout := by
  rcases capCheck_cases I with ⟨-, h⟩ | ⟨-, h⟩ <;> rw [h]

/-- The receive discipline keeps the constants, sets `LAST_T` to `now` and leaves `TIMEOUT` (rules R81 and R144). -/
theorem recvIngest_fields (tbl : ExcTable) (I : Inst) (xs : List Byte) (now : Int) :
    (recvIngest tbl I xs now).1.transport = I.transport ∧ (recvIngest tbl I xs now).1.lastT = now ∧
      (recvIngest tbl I xs now).1.timeout = I.timeout ∧ (recvIngest tbl I xs now).1.cap = I.cap ∧
      (recvIngest tbl I xs now).1.resetTimeout = I.resetTimeout := by
  simp [recvIngest]

end Sys2Proof.Machine
end

