-- ==== Sys2Proof/Laws/Extract.lean ====
section
/-! SUPPORT. The extraction loops without their pass count: each equals the loop of its rule (R76, R89), and ends at a fixed point (R82, R94). -/

namespace Sys2Proof.Machine

/-! ### RTU -/

/-- Every known length is at least 5 (rule R69). -/
theorem rtuLen_known_ge {buf : List Byte} {n : Nat} (h : rtuLen buf = .known n) : 5 ≤ n := by
  unfold rtuLen at h
  dsimp only at h
  split_ifs at h <;> simp only [Estimate.known.injEq] at h <;> omega

/-- A known length needs 4 buffered bytes (rule R69). -/
theorem rtuLen_known_length {buf : List Byte} {n : Nat} (h : rtuLen buf = .known n) : 4 ≤ buf.length := by
  by_contra hn
  simp [rtuLen, Nat.lt_of_not_le hn] at h

/-- Below 4 bytes the length is undetermined (rule R69). -/
theorem rtuLen_short {buf : List Byte} (h : buf.length < 4) : rtuLen buf = .undetermined := by
  simp [rtuLen, h]

/-- More passes than bytes change nothing. -/
theorem rtuScan_passes : ∀ (p q : Nat) (buf : List Byte), buf.length ≤ p → buf.length ≤ q → rtuScan p buf = rtuScan q buf
  | 0, 0, _, _, _ => rfl
  | 0, q + 1, buf, hp, _ => by
    have : buf = [] := by simpa using hp
    subst this; simp [rtuScan, rtuLen]
  | p + 1, 0, buf, _, hq => by
    have : buf = [] := by simpa using hq
    subst this; simp [rtuScan, rtuLen]
  | p + 1, q + 1, buf, hp, hq => by
    simp only [rtuScan]
    cases h : rtuLen buf with
    | undetermined => rfl
    | known n =>
      have hn := rtuLen_known_ge h
      have hd : (buf.drop n).length = buf.length - n := List.length_drop
      simp only [rtuScan_passes p q (buf.drop n) (by omega) (by omega)]

/-- A buffer that waits is left as it is (rule R76). -/
theorem rtuSlices_waits {buf : List Byte} (h : rtuWaits buf = true) : rtuSlices buf = ([], buf) := by
  unfold rtuSlices
  cases hb : buf.length with
  | zero => rfl
  | succ k =>
    simp only [rtuScan]
    cases hl : rtuLen buf with
    | undetermined => rfl
    | known n =>
      have : buf.length < n := by simpa [rtuWaits, hl] using h
      simp [this]

/-- A buffer that does not wait is sliced at its estimated length (rule R76). -/
theorem rtuSlices_slice {buf : List Byte} {n : Nat} (h : rtuLen buf = .known n) (hn : n ≤ buf.length) :
    rtuSlices buf = (buf.take n :: (rtuSlices (buf.drop n)).1, (rtuSlices (buf.drop n)).2) := by
  have h4 := rtuLen_known_length h
  have h5 := rtuLen_known_ge h
  have hd : (buf.drop n).length = buf.length - n := List.length_drop
  have hs : rtuScan (buf.length - 1) (buf.drop n) = rtuSlices (buf.drop n) :=
    rtuScan_passes _ _ _ (by omega) (by omega)
  conv => lhs; unfold rtuSlices
  obtain ⟨k, hk⟩ : ∃ k, buf.length = k + 1 := ⟨buf.length - 1, by omega⟩
  have hk' : buf.length - 1 = k := by omega
  rw [hk]
  simp only [rtuScan, h]
  rw [if_neg (by omega)]
  rw [hk'] at hs
  rw [hs]

/-- Waiting, or a slice at the head: the only two cases of rule R76. -/
theorem rtuWaits_or_slice (buf : List Byte) :
    rtuWaits buf = true ∨ ∃ n, rtuLen buf = .known n ∧ n ≤ buf.length := by
  unfold rtuWaits
  cases h : rtuLen buf with
  | undetermined => simp
  | known n =>
    by_cases hn : buf.length < n
    · simp [hn]
    · right; exact ⟨n, rfl, by omega⟩

/-- Induction over the RTU loop: a buffer that waits, or one whose slice is taken off. -/
theorem rtu_induction {P : List Byte → Prop} (waits : ∀ buf, rtuWaits buf = true → P buf)
    (slice : ∀ buf n, rtuLen buf = .known n → n ≤ buf.length → P (buf.drop n) → P buf) (buf : List Byte) : P buf := by
  induction hl : buf.length using Nat.strong_induction_on generalizing buf with
  | _ k ih =>
    rcases rtuWaits_or_slice buf with h | ⟨n, h, hn⟩
    · exact waits buf h
    · have h5 := rtuLen_known_ge h
      exact slice buf n h hn (ih (buf.drop n).length (by rw [List.length_drop]; omega) _ rfl)

/-- What extraction leaves waits (rule R82). -/
theorem rtuSlices_residual_waits (buf : List Byte) : rtuWaits (rtuSlices buf).2 = true := by
  induction buf using rtu_induction with
  | waits buf h => rw [rtuSlices_waits h]; exact h
  | slice buf n h hn ih => rw [rtuSlices_slice h hn]; exact ih

/-! ### ASCII -/

/-- The text before a CR LF is shorter than the text. -/
theorem splitCrlf_length : ∀ {text inner rest : List Byte}, splitCrlf text = some (inner, rest) →
    inner.length + rest.length + 2 = text.length
  | [], _, _, h => by simp [splitCrlf] at h
  | b :: text, inner, rest, h => by
    unfold splitCrlf at h
    split at h
    · rename_i hc
      obtain ⟨-, hc⟩ := hc
      simp only [Option.some.injEq, Prod.mk.injEq] at h
      obtain ⟨rfl, rfl⟩ := h
      cases text with
      | nil => simp at hc
      | cons => simp
    · split at h
      · rename_i i r hs
        simp only [Option.some.injEq, Prod.mk.injEq] at h
        obtain ⟨rfl, rfl⟩ := h
        have := splitCrlf_length hs
        simp only [List.length_cons]; omega
      · cases h

/-- The text is what stands before, the CR LF, and what stands after (rule R89). -/
theorem splitCrlf_eq : ∀ {text inner rest : List Byte}, splitCrlf text = some (inner, rest) →
    text = inner ++ cr :: lf :: rest
  | [], _, _, h => by simp [splitCrlf] at h
  | b :: text, inner, rest, h => by
    unfold splitCrlf at h
    split at h
    · rename_i hc
      obtain ⟨rfl, hc⟩ := hc
      simp only [Option.some.injEq, Prod.mk.injEq] at h
      obtain ⟨rfl, rfl⟩ := h
      cases text with
      | nil => simp at hc
      | cons a t => simp only [List.head?_cons, Option.some.injEq] at hc; simp [hc]
    · split at h
      · rename_i i r hs
        simp only [Option.some.injEq, Prod.mk.injEq] at h
        obtain ⟨rfl, rfl⟩ := h
        rw [splitCrlf_eq hs]; rfl
      · cases h

/-- No split means no CR LF (rule R89). -/
theorem splitCrlf_none_iff : ∀ text : List Byte, splitCrlf text = none ↔ hasCrlf text = false
  | [] => by simp [splitCrlf, hasCrlf]
  | [b] => by simp [splitCrlf, hasCrlf]
  | b :: a :: text => by
    have ih := splitCrlf_none_iff (a :: text)
    rw [splitCrlf, hasCrlf]
    by_cases hc : b = cr ∧ a = lf
    · simp [hc.1, hc.2]
    · have hc' : ¬ (b = cr ∧ (a :: text).head? = some lf) := by simpa using hc
      rw [if_neg hc']
      have hd : (decide (b = cr) && decide (a = lf)) = false := by
        simpa using hc
      rw [hd, Bool.false_or, ← ih]
      cases splitCrlf (a :: text) <;> simp

theorem dropWhile_length_le (buf : List Byte) : (buf.dropWhile (· != colon)).length ≤ buf.length :=
  List.IsSuffix.length_le (List.dropWhile_suffix _)

/-- More passes than bytes change nothing. -/
theorem asciiScan_passes : ∀ (p q : Nat) (buf : List Byte), buf.length ≤ p → buf.length ≤ q →
    asciiScan p buf = asciiScan q buf
  | 0, 0, _, _, _ => rfl
  | 0, q + 1, buf, hp, _ => by
    have : buf = [] := by simpa using hp
    subst this; simp [asciiScan]
  | p + 1, 0, buf, _, hq => by
    have : buf = [] := by simpa using hq
    subst this; simp [asciiScan]
  | p + 1, q + 1, buf, hp, hq => by
    simp only [asciiScan]
    have hl := dropWhile_length_le buf
    cases hb : buf.dropWhile (· != colon) with
    | nil => rfl
    | cons c text =>
      rw [hb] at hl
      cases h : splitCrlf text with
      | none => simp only [h]
      | some r =>
        obtain ⟨inner, rest⟩ := r
        have := splitCrlf_length h
        simp only [List.length_cons] at hl
        simp only [h, asciiScan_passes p q rest (by omega) (by omega)]

/-- The first byte after `dropWhile` is the `:`. -/
theorem dropWhile_head {buf text : List Byte} {c : Byte} (h : buf.dropWhile (· != colon) = c :: text) : c = colon := by
  have := List.head?_dropWhile_not (· != colon) buf
  rw [h] at this
  simpa using this

/-- No `:` in the buffer: everything is discarded (rule R89). -/
theorem asciiCandidates_none {buf : List Byte} (h : buf.dropWhile (· != colon) = []) : asciiCandidates buf = ([], []) := by
  unfold asciiCandidates
  cases buf with
  | nil => rfl
  | cons b t => simp only [List.length_cons, asciiScan, h]

/-- A `:` without CR LF after it waits (rule R89). -/
theorem asciiCandidates_wait {buf text : List Byte} (h : buf.dropWhile (· != colon) = colon :: text)
    (hc : splitCrlf text = none) : asciiCandidates buf = ([], colon :: text) := by
  unfold asciiCandidates
  cases buf with
  | nil => simp at h
  | cons b t => simp only [List.length_cons, asciiScan, h, hc]

/-- A `:` with a CR LF after it is one candidate (rule R89). -/
theorem asciiCandidates_cand {buf text inner rest : List Byte} (h : buf.dropWhile (· != colon) = colon :: text)
    (hc : splitCrlf text = some (inner, rest)) :
    asciiCandidates buf = (delimit inner :: (asciiCandidates rest).1, (asciiCandidates rest).2) := by
  have hl := dropWhile_length_le buf
  rw [h] at hl
  have hs := splitCrlf_length hc
  cases buf with
  | nil => simp at h
  | cons b t =>
    simp only [List.length_cons] at hl
    have he : asciiScan t.length rest = asciiCandidates rest := asciiScan_passes _ _ _ (by omega) (by omega)
    conv => lhs; unfold asciiCandidates
    simp only [List.length_cons, asciiScan, h, hc, he]
    rfl

/-- The three cases of rule R89. -/
theorem ascii_cases (buf : List Byte) :
    buf.dropWhile (· != colon) = [] ∨
      (∃ text, buf.dropWhile (· != colon) = colon :: text ∧ splitCrlf text = none) ∨
      ∃ text inner rest, buf.dropWhile (· != colon) = colon :: text ∧ splitCrlf text = some (inner, rest) := by
  cases hb : buf.dropWhile (· != colon) with
  | nil => simp
  | cons c text =>
    obtain rfl := dropWhile_head hb
    cases hc : splitCrlf text with
    | none => exact .inr (.inl ⟨text, rfl, hc⟩)
    | some r => exact .inr (.inr ⟨text, r.1, r.2, rfl, hc⟩)

/-- Induction over the ASCII loop. -/
theorem ascii_induction {P : List Byte → Prop}
    (none : ∀ buf, buf.dropWhile (· != colon) = [] → P buf)
    (wait : ∀ buf text, buf.dropWhile (· != colon) = colon :: text → splitCrlf text = .none → P buf)
    (cand : ∀ buf text inner rest, buf.dropWhile (· != colon) = colon :: text →
      splitCrlf text = some (inner, rest) → P rest → P buf) (buf : List Byte) : P buf := by
  induction hl : buf.length using Nat.strong_induction_on generalizing buf with
  | _ k ih =>
    rcases ascii_cases buf with h | ⟨text, h, hc⟩ | ⟨text, inner, rest, h, hc⟩
    · exact none buf h
    · exact wait buf text h hc
    · have h1 := dropWhile_length_le buf
      rw [h] at h1
      have h2 := splitCrlf_length hc
      simp only [List.length_cons] at h1
      exact cand buf text inner rest h hc (ih rest.length (by omega) _ rfl)

/-- What extraction leaves waits (rule R94). -/
theorem asciiCandidates_residual_waits (buf : List Byte) : asciiWaits (asciiCandidates buf).2 = true := by
  induction buf using ascii_induction with
  | none buf h => rw [asciiCandidates_none h]; rfl
  | wait buf text h hc =>
    rw [asciiCandidates_wait h hc]
    simp [asciiWaits, (splitCrlf_none_iff text).1 hc]
  | cand buf text inner rest h hc ih => rw [asciiCandidates_cand h hc]; exact ih

/-- A buffer that waits is left as it is (rule R94). -/
theorem asciiCandidates_waits {buf : List Byte} (h : asciiWaits buf = true) : asciiCandidates buf = ([], buf) := by
  cases buf with
  | nil => rfl
  | cons c text =>
    simp only [asciiWaits, Bool.and_eq_true, decide_eq_true_eq, Bool.not_eq_true'] at h
    obtain ⟨rfl, h⟩ := h
    exact asciiCandidates_wait (by simp) ((splitCrlf_none_iff text).2 h)

/-! ### Both -/

/-- Extraction of a buffer that waits emits nothing and leaves it (rules R82 and R94). -/
theorem extract_waits {tr : Transport} {buf : List Byte} (h : bufWaits tr buf = true) (tbl : ExcTable) (now : Int) :
    extract tbl tr buf now = ([], buf) := by
  cases tr with
  | rtu => simp [extract, rtuExtract, rtuSlices_waits h]
  | ascii => simp [extract, asciiExtract, asciiCandidates_waits h]

/-- Extraction ends at its fixed point (rules R82 and R94). -/
theorem extract_residual_waits (tbl : ExcTable) (tr : Transport) (buf : List Byte) (now : Int) :
    bufWaits tr (extract tbl tr buf now).2 = true := by
  cases tr with
  | rtu => exact rtuSlices_residual_waits buf
  | ascii => exact asciiCandidates_residual_waits buf

end Sys2Proof.Machine
end

