-- ==== Sys2Proof/Laws/Frames.lean ====
section
/-! SUPPORT. What `finish` leaves alone (rule R99: "it writes only the fields those rules name"), field by field, and that it does not look at the time. -/

namespace Sys2Proof.Machine

/-- The only shapes `finish` can take: no exception, or an exception to some original function; then one value of `interpreted`. -/
theorem finish_cases (tbl : ExcTable) (f : Frame) :
    ∃ v : Option InterpretedPayload, finish tbl f = { noException f with interpreted := v } ∨
      ∃ fc : Byte, f.functionCode = some fc ∧ 0x80 ≤ fc.toNat ∧ finish tbl f = { asException tbl (fc - 0x80) f with interpreted := v } := by
  unfold finish setInterpreted excFields
  cases hf : f.functionCode with
  | none => exact ⟨_, .inl rfl⟩
  | some fc =>
    by_cases h : 0x80 ≤ fc.toNat
    · simp only [h, if_true]; exact ⟨_, .inr ⟨fc, rfl, h, rfl⟩⟩
    · simp only [h, if_false]; exact ⟨_, .inl rfl⟩

variable (tbl : ExcTable) (f : Frame)

@[simp] theorem finish_transport : (finish tbl f).transport = f.transport := by
  obtain ⟨v, h | ⟨fc, -, -, h⟩⟩ := finish_cases tbl f <;> rw [h] <;> rfl
@[simp] theorem finish_direction : (finish tbl f).direction = f.direction := by
  obtain ⟨v, h | ⟨fc, -, -, h⟩⟩ := finish_cases tbl f <;> rw [h] <;> rfl
@[simp] theorem finish_raw : (finish tbl f).raw = f.raw := by
  obtain ⟨v, h | ⟨fc, -, -, h⟩⟩ := finish_cases tbl f <;> rw [h] <;> rfl
@[simp] theorem finish_data : (finish tbl f).data = f.data := by
  obtain ⟨v, h | ⟨fc, -, -, h⟩⟩ := finish_cases tbl f <;> rw [h] <;> rfl
@[simp] theorem finish_slaveAddress : (finish tbl f).slaveAddress = f.slaveAddress := by
  obtain ⟨v, h | ⟨fc, -, -, h⟩⟩ := finish_cases tbl f <;> rw [h] <;> rfl
@[simp] theorem finish_functionCode : (finish tbl f).functionCode = f.functionCode := by
  obtain ⟨v, h | ⟨fc, -, -, h⟩⟩ := finish_cases tbl f <;> rw [h] <;> rfl
@[simp] theorem finish_payload : (finish tbl f).payload = f.payload := by
  obtain ⟨v, h | ⟨fc, -, -, h⟩⟩ := finish_cases tbl f <;> rw [h] <;> rfl
@[simp] theorem finish_checksumReceived : (finish tbl f).checksumReceived = f.checksumReceived := by
  obtain ⟨v, h | ⟨fc, -, -, h⟩⟩ := finish_cases tbl f <;> rw [h] <;> rfl
@[simp] theorem finish_checksumComputed : (finish tbl f).checksumComputed = f.checksumComputed := by
  obtain ⟨v, h | ⟨fc, -, -, h⟩⟩ := finish_cases tbl f <;> rw [h] <;> rfl
@[simp] theorem finish_checksumValid : (finish tbl f).checksumValid = f.checksumValid := by
  obtain ⟨v, h | ⟨fc, -, -, h⟩⟩ := finish_cases tbl f <;> rw [h] <;> rfl
@[simp] theorem finish_timestamp : (finish tbl f).timestamp = f.timestamp := by
  obtain ⟨v, h | ⟨fc, -, -, h⟩⟩ := finish_cases tbl f <;> rw [h] <;> rfl

/-- `finish` does not read the time (rule R96). -/
theorem finish_time (t : Int) : finish tbl { f with timestamp := t } = { finish tbl f with timestamp := t } := by
  rcases f with ⟨_, _, _, _, _, fc, _, _, _, _, _, _, _, _, _, _⟩
  cases fc with
  | none => simp [finish, setInterpreted, excFields, noException]
  | some fc => by_cases h : 0x80 ≤ fc.toNat <;> simp [finish, setInterpreted, excFields, noException, asException, h]

@[simp] theorem rtuFrameRx_raw (d : List Byte) (now : Int) : (rtuFrameRx tbl d now).raw = d := finish_raw _ _
@[simp] theorem rtuFrameRx_data (d : List Byte) (now : Int) : (rtuFrameRx tbl d now).data = d := finish_data _ _
@[simp] theorem asciiFrame_raw (c raw : List Byte) (dir : Direction) (now : Int) : (asciiFrame tbl c raw dir now).raw = raw := finish_raw _ _
@[simp] theorem asciiFrame_data (c raw : List Byte) (dir : Direction) (now : Int) : (asciiFrame tbl c raw dir now).data = c := finish_data _ _

end Sys2Proof.Machine
end

