-- ==== Sys2Proof/Laws/Moves.lean ====
section
/-! SUPPORT. What fetching an instruction can do (rules R60 and R117). -/

namespace Sys2Proof.Machine

/-- An instruction is fetched exactly when the addressed instance exists and decodes the issue to it by its TRANSPORT. -/
theorem fetchInstr_ok_iff {s : State} {w : Issue} {i : Instr} :
    fetchInstr s w = .ok i ↔ ∃ I, s.live = some I ∧ decode I.transport w = .ok i := by
  unfold fetchInstr
  cases s.live with
  | none => simp
  | some I => cases hd : decode I.transport w <;> simp [Except.mapError, hd]

/-- A fetch that gives no instruction never gives a next state: it is the missing instance, or bytes that are no frame. -/
theorem fetchInstr_error {s : State} {w : Issue} {stop : Host.Outcome State Fault Refusal} (h : fetchInstr s w = .error stop) :
    stop = .fault .noInstance ∨ ∃ e, stop = .refused (.badFrame e) := by
  unfold fetchInstr at h
  split at h
  · exact .inl (by simpa using h.symm)
  · rename_i I _
    cases hd : decode I.transport w with
    | ok i => simp [hd, Except.mapError] at h
    | error e => exact .inr ⟨e, by simpa [hd, Except.mapError] using h.symm⟩

@[simp] theorem addressInst_insts (k : Nat) (rest : List HostMove) (s : State) : (addressInst k rest s).insts = s.insts := rfl
@[simp] theorem addressInst_excTable (k : Nat) (rest : List HostMove) (s : State) : (addressInst k rest s).excTable = s.excTable := rfl
@[simp] theorem addressInst_sel (k : Nat) (rest : List HostMove) (s : State) : (addressInst k rest s).sel = k := rfl
@[simp] theorem addressInst_script (k : Nat) (rest : List HostMove) (s : State) : (addressInst k rest s).script = rest := rfl
@[simp] theorem addressInst_results (k : Nat) (rest : List HostMove) (s : State) : (addressInst k rest s).results = s.results := rfl
@[simp] theorem addressInst_fresh (k : Nat) (rest : List HostMove) (s : State) : (addressInst k rest s).fresh = s.fresh := rfl

end Sys2Proof.Machine
end

