-- ==== Sys2Proof/Laws/PerInstr.lean ====
section
/-! SUPPORT. One law for every instruction: the byte that spec/opcode_table.json numbers, read out of the instruction's encoding, is one of its row's. -/

namespace Sys2Proof.Laws.EncodedWord

open Machine

/-- The byte of an issue that the opcode table numbers: the command word, or content byte 1 of a frame on a wire of transport `tr`. -/
def tableByte (tr : Transport) : Issue → Option Byte
  | .command c => some c.word
  | .frame f =>
    match tr with
    | .rtu => f.bytes.tail.head?
    | .ascii => (hexDecode (strip f.bytes)).bind fun content => content.tail.head?

/-- The command words of the eleven legal rows of the opcode table. -/
def legalRows : List Byte := [0x00, 0x10, 0x20, 0x21, 0x30, 0x40, 0x50, 0x60, 0x70, 0x80, 0x90]

/-- The function codes of the nine recognized rows of the opcode table. -/
def recognizedRows : List Byte := [0x01, 0x02, 0x03, 0x04, 0x05, 0x06, 0x08, 0x0F, 0x10]

/-- The byte has the row's fixed bits: it equals the row's `match` under the row's `mask`, and no row tested before takes it. -/
def InRow (b : Byte) : Instr → Prop
  | .reset => b = 0x00
  | .setTimeout _ => b = 0x10
  | .tx _ _ => b = 0x20
  | .rx _ _ => b = 0x21
  | .flush _ => b = 0x30
  | .crc16 _ => b = 0x40
  | .lrc _ => b = 0x50
  | .hexDecode _ => b = 0x60
  | .interpret _ _ => b = 0x70
  | .excMsg _ => b = 0x80
  | .rtuLen _ => b = 0x90
  | .illegal _ => b ∉ legalRows
  | .exceptionResponse _ _ => b &&& 0x80 = 0x80
  | .readCoils _ => b = 0x01
  | .readDiscreteInputs _ => b = 0x02
  | .readHoldingRegisters _ => b = 0x03
  | .readInputRegisters _ => b = 0x04
  | .writeSingleCoil _ => b = 0x05
  | .writeSingleRegister _ => b = 0x06
  | .diagnostics _ => b = 0x08
  | .writeMultipleCoils _ => b = 0x0F
  | .writeMultipleRegisters _ => b = 0x10
  | .unknownFunction _ _ => b &&& 0x80 = 0x00 ∧ b ∉ recognizedRows

/-- A well-formed instruction's encoding, on a wire it fits, carries a byte of its own row. -/
def Statement (i : Instr) : Prop :=
  ∀ tr : Transport, i.wf = true → i.fits tr = true → ∃ b, tableByte tr (encode i) = some b ∧ InRow b i

/-- A frame on the wire carries its function code as content byte 1. -/
theorem tableByte_frameOf {w : FnFrame} {fc : Byte} (tr : Transport) (h : w.wf fc = true) (hw : w.fits tr = true) :
    tableByte tr (frameOf fc w) = some fc := by
  rcases w with ⟨wire, dir, addr, body, now⟩
  cases tr <;> cases wire <;> simp only [FnFrame.fits, Bool.false_eq_true] at hw
  · rfl
  · simp [frameOf, tableByte, FnFrame.wf_ascii h]

/-- A word that is not legal is none of the eleven. -/
theorem not_legalRows : ∀ b : Byte, legalWord b = false → b ∉ legalRows := by
  intro b h hb
  simp only [legalRows, List.mem_cons, List.not_mem_nil, or_false] at hb
  rcases hb with rfl | rfl | rfl | rfl | rfl | rfl | rfl | rfl | rfl | rfl | rfl <;> exact absurd h (by decide)

/-- An exception function code has bit 7 set. -/
theorem exceptionFc_bit : ∀ o : BitVec 7, exceptionFc o &&& 0x80 = 0x80 := by decide +kernel

/-- A code of the class UNKNOWN_FUNCTION has bit 7 clear and is none of the nine. -/
theorem unknown_row : ∀ fc : Byte, classOf fc = .unknownFunction → fc &&& 0x80 = 0x00 ∧ fc ∉ recognizedRows := by
  decide +kernel

theorem reset : Statement .reset := fun _ _ _ => ⟨_, rfl, rfl⟩
theorem setTimeout (value : Nat) : Statement (.setTimeout value) := fun _ _ _ => ⟨_, rfl, rfl⟩
theorem tx (data : List Byte) (now : Int) : Statement (.tx data now) := fun _ _ _ => ⟨_, rfl, rfl⟩
theorem rx (data : List Byte) (now : Int) : Statement (.rx data now) := fun _ _ _ => ⟨_, rfl, rfl⟩
theorem flush (now : Int) : Statement (.flush now) := fun _ _ _ => ⟨_, rfl, rfl⟩
theorem crc16 (data : List Byte) : Statement (.crc16 data) := fun _ _ _ => ⟨_, rfl, rfl⟩
theorem lrc (data : List Byte) : Statement (.lrc data) := fun _ _ _ => ⟨_, rfl, rfl⟩
theorem hexDecode (data : List Byte) : Statement (.hexDecode data) := fun _ _ _ => ⟨_, rfl, rfl⟩
theorem interpret (fc : Byte) (data : List Byte) : Statement (.interpret fc data) := fun _ _ _ => ⟨_, rfl, rfl⟩
theorem excMsg (code : Byte) : Statement (.excMsg code) := fun _ _ _ => ⟨_, rfl, rfl⟩
theorem rtuLen (data : List Byte) : Statement (.rtuLen data) := fun _ _ _ => ⟨_, rfl, rfl⟩
theorem illegal (word : Byte) : Statement (.illegal word) := fun _ h _ =>
  ⟨_, rfl, not_legalRows word (by simpa [Instr.wf] using h)⟩
theorem exceptionResponse (original : BitVec 7) (w : FnFrame) : Statement (.exceptionResponse original w) := fun tr h hw =>
  ⟨_, tableByte_frameOf tr h hw, exceptionFc_bit original⟩
theorem readCoils (w : FnFrame) : Statement (.readCoils w) := fun tr h hw => ⟨_, tableByte_frameOf tr h hw, rfl⟩
theorem readDiscreteInputs (w : FnFrame) : Statement (.readDiscreteInputs w) := fun tr h hw => ⟨_, tableByte_frameOf tr h hw, rfl⟩
theorem readHoldingRegisters (w : FnFrame) : Statement (.readHoldingRegisters w) := fun tr h hw => ⟨_, tableByte_frameOf tr h hw, rfl⟩
theorem readInputRegisters (w : FnFrame) : Statement (.readInputRegisters w) := fun tr h hw => ⟨_, tableByte_frameOf tr h hw, rfl⟩
theorem writeSingleCoil (w : FnFrame) : Statement (.writeSingleCoil w) := fun tr h hw => ⟨_, tableByte_frameOf tr h hw, rfl⟩
theorem writeSingleRegister (w : FnFrame) : Statement (.writeSingleRegister w) := fun tr h hw => ⟨_, tableByte_frameOf tr h hw, rfl⟩
theorem diagnostics (w : FnFrame) : Statement (.diagnostics w) := fun tr h hw => ⟨_, tableByte_frameOf tr h hw, rfl⟩
theorem writeMultipleCoils (w : FnFrame) : Statement (.writeMultipleCoils w) := fun tr h hw => ⟨_, tableByte_frameOf tr h hw, rfl⟩
theorem writeMultipleRegisters (w : FnFrame) : Statement (.writeMultipleRegisters w) := fun tr h hw => ⟨_, tableByte_frameOf tr h hw, rfl⟩
theorem unknownFunction (fc : Byte) (w : FnFrame) : Statement (.unknownFunction fc w) := fun tr h hw => by
  simp only [Instr.wf, Bool.and_eq_true, decide_eq_true_eq] at h
  exact ⟨_, tableByte_frameOf tr h.2 hw, unknown_row fc h.1⟩

end Sys2Proof.Laws.EncodedWord
end

