-- ==== Sys2Proof/Tests/Slice0.lean ====
section
/-! SUPPORT. Tests. Expected values are those of spec/95_test_vectors.md (its vector is named in each comment) or words written out from spec/30_encoding.md. The last part holds one witness for every statement with hypotheses. -/

namespace Sys2Proof.Tests

set_option Elab.async false

open Sys2Proof.Machine

/-! ### Helpers -/

/-- A machine with one instance, addressed. -/
def one (I : Inst) : State := { insts := [some I], excTable := defaultExcTable, sel := 0, script := [], results := [], fresh := 0 }

/-- An RTU instance. -/
def rtu (buf : List Byte) (lastT : Int) (timeout : Nat) : Inst :=
  { transport := .rtu, buf := buf, lastT := lastT, timeout := timeout, cap := 264, resetTimeout := 100 }

/-- An ASCII instance. -/
def asc (buf : List Byte) (lastT : Int) (timeout : Nat) : Inst :=
  { transport := .ascii, buf := buf, lastT := lastT, timeout := timeout, cap := 513, resetTimeout := 1000 }

/-- The state of a next outcome. -/
def nextOf : Host.Outcome State Fault Refusal → Option State
  | .next s => some s
  | .fault _ => none
  | .refused _ => none

/-- The instance and the results that running `i` on the one instance `I` leaves. -/
def run (i : Instr) (I : Inst) : Option (List (Option Inst) × List (Nat × Result)) :=
  (nextOf (exec i (one I))).map fun s => (s.insts, s.results)

/-- The expected outcome: instance `I`, result `r`. -/
def leaves (I : Inst) (r : Result) : Option (List (Option Inst) × List (Nat × Result)) := some ([some I], [(0, r)])

/-- A Frame that is no exception, in the order of the notation of 95_test_vectors. -/
def frame (tr : Transport) (dir : Direction) (raw data : List Byte) (addr fc : Option Byte) (payload : List Byte)
    (rcv cmp : Option Checksum) (valid : Bool) (interp : Option InterpretedPayload) (t : Int) : Frame :=
  { transport := tr, direction := dir, raw := raw, data := data, slaveAddress := addr, functionCode := fc, payload := payload,
    checksumReceived := rcv, checksumComputed := cmp, checksumValid := valid, isException := false, originalFunction := none,
    exceptionCode := none, exceptionMessage := none, interpreted := interp, timestamp := t }

/-- The same as an exception response. -/
def excFrame (f : Frame) (original : Byte) (code : Option Byte) (msg : Option Msg) : Frame :=
  { f with isException := true, originalFunction := some original, exceptionCode := code, exceptionMessage := msg }

/-! ### Ill-formed terms, one a check of WellFormed -/

theorem test_wf_illegal_refuses_a_legal_word : (Instr.illegal 0x21).wf = false := by decide
theorem test_wf_rtu_receive_refuses_a_wrong_length :
    (Instr.writeSingleCoil ⟨.rtu, .receive, 0x01, [0, 0xAC, 0xFF, 0, 0x4C], 0⟩).wf = false := by decide
theorem test_wf_ascii_refuses_a_foreign_text :
    (Instr.readCoils ⟨.ascii (charCodes "0101FF"), .receive, 0x01, [0xFE], 0⟩).wf = false := by decide +kernel
theorem test_wf_ascii_refuses_two_bytes :
    (Instr.readCoils ⟨.ascii (charCodes "0101"), .receive, 0x01, [], 0⟩).wf = false := by decide +kernel
theorem test_wf_unknown_refuses_a_recognized_code :
    (Instr.unknownFunction 0x03 ⟨.rtu, .send, 0x01, [], 0⟩).wf = false := by decide

/-! ### Decoding, from words written out by the fields of rules R46, R51, R53 and R57 -/

/-- OP = 0 to 9, RSV = 000, D = 0, and OP = 2 with D = 1 (rule R47). -/
theorem test_decode_commands :
    decodeCommand ⟨0b00000000, [7], 5, 9, 3⟩ = .reset ∧ decodeCommand ⟨0b00010000, [7], 5, 9, 3⟩ = .setTimeout 9 ∧
    decodeCommand ⟨0b00100000, [7], 5, 9, 3⟩ = .tx [7] 5 ∧ decodeCommand ⟨0b00100001, [7], 5, 9, 3⟩ = .rx [7] 5 ∧
    decodeCommand ⟨0b00110000, [7], 5, 9, 3⟩ = .flush 5 ∧ decodeCommand ⟨0b01000000, [7], 5, 9, 3⟩ = .crc16 [7] ∧
    decodeCommand ⟨0b01010000, [7], 5, 9, 3⟩ = .lrc [7] ∧ decodeCommand ⟨0b01100000, [7], 5, 9, 3⟩ = .hexDecode [7] ∧
    decodeCommand ⟨0b01110000, [7], 5, 9, 3⟩ = .interpret 3 [7] ∧ decodeCommand ⟨0b10000000, [7], 5, 9, 3⟩ = .excMsg 3 ∧
    decodeCommand ⟨0b10010000, [7], 5, 9, 3⟩ = .rtuLen [7] := by decide

/-- 95_test_vectors L2.10, the words that decode to ILLEGAL. -/
theorem test_decode_illegal_words :
    [0x01, 0x22, 0x23, 0x2E, 0x31, 0x91, 0xA0, 0xF0, 0xFF].all (fun w => decodeCommand ⟨w, [7], 5, 9, 3⟩ = .illegal w) = true := by
  decide

/-- RTU receive frames by their byte 1, address 11H: the length of each is its row's (rule R52). -/
theorem test_decode_rtu_frames :
    (decodeFrame .rtu ⟨.receive, [0x11, 0x83, 0x02, 0xC1, 0x34], 4⟩).toOption =
      some (.exceptionResponse 0x03 ⟨.rtu, .receive, 0x11, [0x02, 0xC1, 0x34], 4⟩) ∧
    (decodeFrame .rtu ⟨.receive, [0x11, 0x01, 0x01, 0x05, 0, 0], 4⟩).toOption = some (.readCoils ⟨.rtu, .receive, 0x11, [0x01, 0x05, 0, 0], 4⟩) ∧
    (decodeFrame .rtu ⟨.receive, [0x11, 0x02, 0x00, 0, 0], 4⟩).toOption = some (.readDiscreteInputs ⟨.rtu, .receive, 0x11, [0x00, 0, 0], 4⟩) ∧
    (decodeFrame .rtu ⟨.receive, [0x11, 0x03, 0x02, 0, 0x0A, 0, 0], 4⟩).toOption =
      some (.readHoldingRegisters ⟨.rtu, .receive, 0x11, [0x02, 0, 0x0A, 0, 0], 4⟩) ∧
    (decodeFrame .rtu ⟨.receive, [0x11, 0x04, 0x00, 0, 0], 4⟩).toOption = some (.readInputRegisters ⟨.rtu, .receive, 0x11, [0x00, 0, 0], 4⟩) ∧
    (decodeFrame .rtu ⟨.receive, [0x11, 0x05, 0, 0xAC, 0xFF, 0, 0, 0], 4⟩).toOption =
      some (.writeSingleCoil ⟨.rtu, .receive, 0x11, [0, 0xAC, 0xFF, 0, 0, 0], 4⟩) ∧
    (decodeFrame .rtu ⟨.receive, [0x11, 0x06, 0, 1, 0, 3, 0, 0], 4⟩).toOption =
      some (.writeSingleRegister ⟨.rtu, .receive, 0x11, [0, 1, 0, 3, 0, 0], 4⟩) ∧
    (decodeFrame .rtu ⟨.receive, [0x11, 0x08, 0, 0, 0xA5, 0x37, 0, 0], 4⟩).toOption =
      some (.diagnostics ⟨.rtu, .receive, 0x11, [0, 0, 0xA5, 0x37, 0, 0], 4⟩) ∧
    (decodeFrame .rtu ⟨.receive, [0x11, 0x07, 0, 0, 0, 0, 0, 0], 4⟩).toOption =
      some (.unknownFunction 0x07 ⟨.rtu, .receive, 0x11, [0, 0, 0, 0, 0, 0], 4⟩) := by decide +kernel

theorem test_decode_rtu_multiple_writes :
    (decodeFrame .rtu ⟨.receive, [0x11, 0x0F, 0, 0x13, 0, 0x0A, 0x02, 0xCD, 0x01, 0, 0], 4⟩).toOption =
      some (.writeMultipleCoils ⟨.rtu, .receive, 0x11, [0, 0x13, 0, 0x0A, 0x02, 0xCD, 0x01, 0, 0], 4⟩) ∧
    (decodeFrame .rtu ⟨.receive, [0x11, 0x10, 0, 1, 0, 1, 0x02, 0, 0x0A, 0, 0], 4⟩).toOption =
      some (.writeMultipleRegisters ⟨.rtu, .receive, 0x11, [0, 1, 0, 1, 0x02, 0, 0x0A, 0, 0], 4⟩) := by decide +kernel

/-- The ASCII form: content byte 1 after hex decoding (rule R53). -/
theorem test_decode_ascii_frame :
    (decodeFrame .ascii ⟨.receive, charCodes ":1183026a\r\n", 4⟩).toOption =
      some (.exceptionResponse 0x03 ⟨.ascii (charCodes "1183026a"), .receive, 0x11, [0x02, 0x6A], 4⟩) := by decide +kernel

/-- What is no frame is refused by name. -/
theorem test_decode_refuses_by_name :
    decode .rtu (.frame ⟨.send, [0x11], 4⟩) = .error .noFunctionCode ∧
    decode .ascii (.frame ⟨.receive, charCodes "118302\r\n", 4⟩) = .error .notDelimited ∧
    decode .ascii (.frame ⟨.receive, charCodes ":1183026g\r\n", 4⟩) = .error .notHex ∧
    decode .rtu (.frame ⟨.receive, [0x11, 0x83, 0x02, 0xC1], 4⟩) = .error .wrongLength := ⟨rfl, rfl, rfl, rfl⟩

/-- The opcode table's rows by number: a command word, and a function code that is no command word. -/
theorem test_decodeTableWord :
    decodeTableWord 8 0x21 = some (.rx [] 0) ∧
    decodeTableWord 8 0x05 = some (.writeSingleCoil ⟨.rtu, .receive, 0, [0, 0, 0, 0, 0, 0], 0⟩) ∧ decodeTableWord 16 0x21 = none := by
  decide

/-! ### Control commands -/

/-- CT-2: BUF empty, TIMEOUT the parameter; LAST_T is not tested, it is any integer. -/
theorem test_reset : (nextOf (exec .reset (one (rtu [0x01, 0x03] 0 20)))).map
    (fun s => (s.insts.map fun o => o.map fun I => (I.buf, I.timeout), s.results)) = some ([some ([], 100)], [(0, .ok)]) := by decide
/-- CT-1. -/
theorem test_setTimeout : run (.setTimeout 20) (rtu [0x01] 7 50) = leaves (rtu [0x01] 7 20) .ok := by decide
/-- CT-3. -/
theorem test_flush_stale : run (.flush 100) (rtu [0x01, 0x03, 0x02] 0 50) = leaves (rtu [] 0 50) (.frames [] false) := by decide
/-- CT-4. -/
theorem test_flush_boundary :
    run (.flush 50) (rtu [0x01, 0x03, 0x02] 0 50) = leaves (rtu [0x01, 0x03, 0x02] 0 50) (.frames [] false) := by decide
/-- P4, line 3. -/
theorem test_illegal : run (.illegal 0x22) (rtu [0x01, 0x03] 0 50) = leaves (rtu [0x01, 0x03] 0 50) .illegal := by decide

/-! ### Queries -/

/-- L1.1. -/
theorem test_crc16 : run (.crc16 [0x01, 0x03, 0, 0, 0, 0x0A]) (rtu [] 0 50) = leaves (rtu [] 0 50) (.crc 0xCDC5) := by decide +kernel
/-- CK-1 and `crc_step(0x1234, 0x56)` of L2.1. -/
theorem test_crc_steps : crc16 [] = 0xFFFF ∧ crcStep 0x1234 0x56 = 0xE993 ∧ crc16 (charCodes "123456789") = 0x4B37 := by decide +kernel
/-- L1.2. -/
theorem test_lrc : run (.lrc [0x01, 0x03, 0, 0, 0, 0x0A]) (rtu [] 0 50) = leaves (rtu [] 0 50) (.lrc 0xF2) := by decide
/-- CK-14, CK-17. -/
theorem test_lrc_corners : lrc [] = 0x00 ∧ lrc [0xFF, 0xFF] = 0x02 := by decide
/-- HX-3. -/
theorem test_hexDecode :
    run (.hexDecode (charCodes "ABC")) (asc [] 0 50) = leaves (asc [] 0 50) (.bytes (some [0x0A, 0xBC])) := by decide +kernel
/-- HX-1, HX-4, HX-7, HX-9. -/
theorem test_hexDecode_corners : hexDecode [] = some [] ∧ hexDecode (charCodes "fF") = some [0xFF] ∧
    hexDecode (charCodes "0g") = none ∧ hexDecode (charCodes ":01") = none := by decide +kernel
/-- IN-5. -/
theorem test_interpret_request : run (.interpret 0x01 [0x03, 0x01, 0x02, 0x03]) (rtu [] 0 50) =
    leaves (rtu [] 0 50) (.payload (some (.readRequest 0x0301 0x0203))) := by decide
/-- IN-2, IN-8, IN-14, IN-16, IN-25, IN-21, IN-27, IN-31. -/
theorem test_interpret_corners :
    interpret 0x01 [0x02, 0xFF] = some (.bitRead 2 [true, true, true, true, true, true, true, true]) ∧
    interpret 0x03 [0x02, 0, 0x0A, 0x0B, 0x0C] = some (.registerRead 2 [0x000A]) ∧
    interpret 0x05 [0, 0xAC, 0xFF, 0xFF] = some (.singleWrite 0x00AC 0) ∧ interpret 0x05 [0, 0xAC, 0xFF] = none ∧
    interpret 0x10 [0, 1, 0, 2, 3, 0, 0x0A, 1] = some (.multiWrite 1 2 (some 3) (some (.regs [0x000A]))) ∧
    interpret 0x0F [0, 0x13, 0, 0x0A] = some (.multiWrite 0x13 0x0A none none) ∧
    interpret 0x08 [0, 0] = none ∧ interpret 0x83 [0x02] = none := by decide
/-- EM-3. -/
theorem test_excMsg : run (.excMsg 0x02) (rtu [] 0 50) = leaves (rtu [] 0 50) (.msg .illegalDataAddress) := by decide
/-- LN-9. -/
theorem test_rtuLen_undetermined : run (.rtuLen [0x01, 0x0F, 0, 0x13, 0, 0x0A, 0x02]) (rtu [] 0 50) =
    leaves (rtu [] 0 50) (.length .undetermined) := by decide
/-- LN-12 and LN-16. -/
theorem test_rtuLen_known : rtuLen [0x01, 0x10, 0, 1, 0, 2, 0x10, 0x08] = .known 25 ∧ rtuLen [0x01, 0x7F, 0, 0] = .known 8 := by decide

/-! ### Receiving and sending -/

/-- RR-3: the 0x03 Frame of L1.3, and the next byte stays. -/
theorem test_rx_rtu : run (.rx [0x01, 0x03, 0x02, 0, 0x0A, 0x38, 0x43, 0x01] 0) (rtu [] 0 50) =
    leaves (rtu [0x01] 0 50) (.frames [frame .rtu .receive [0x01, 0x03, 0x02, 0, 0x0A, 0x38, 0x43] [0x01, 0x03, 0x02, 0, 0x0A, 0x38, 0x43]
      (some 0x01) (some 0x03) [0x02, 0, 0x0A] (some (.crc 0x4338)) (some (.crc 0x4338)) true (some (.registerRead 2 [0x000A])) 0] false) := by
  decide +kernel
/-- RR-15: stale, discarded; RR-14 is the same at 50. -/
theorem test_rx_stale : run (.rx [0xF1] 51) (rtu [0x01, 0x83, 0x02, 0xC0] 0 50) = leaves (rtu [0xF1] 51 50) (.frames [] false) := by
  decide +kernel
/-- L1.7, the ASCII row. -/
theorem test_rx_ascii : run (.rx (charCodes ":0183027A\r\n") 0) (asc [] 0 1000) =
    leaves (asc [] 0 1000) (.frames [excFrame (frame .ascii .receive (charCodes "0183027A") [0x01, 0x83, 0x02, 0x7A] (some 0x01) (some 0x83)
      [0x02] (some (.lrc 0x7A)) (some (.lrc 0x7A)) true none 0) 0x03 (some 0x02) (some .illegalDataAddress)] false) := by decide +kernel
/-- AR-14 in small: a residual above CAP is discarded and reported. -/
theorem test_rx_overflow : run (.rx (charCodes ":000") 3) { asc [] 0 1000 with cap := 3 } =
    leaves { asc [] 3 1000 with cap := 3 } (.frames [] true) := by decide +kernel
/-- L1.3: the mis-sized request goes through TX whole. -/
theorem test_tx_rtu : run (.tx [0x01, 0x03, 0, 0, 0, 0x0A, 0xC5, 0xCD] 0) (rtu [0x01] 7 50) =
    leaves (rtu [0x01] 7 50) (.frames [frame .rtu .send [0x01, 0x03, 0, 0, 0, 0x0A, 0xC5, 0xCD] [0x01, 0x03, 0, 0, 0, 0x0A, 0xC5, 0xCD]
      (some 0x01) (some 0x03) [0, 0, 0, 0x0A] (some (.crc 0xCDC5)) (some (.crc 0xCDC5)) true (some (.readRequest 0 0x000A)) 0] false) := by
  decide +kernel
/-- AT-3: two decoded bytes give the failure Frame. -/
theorem test_tx_ascii : run (.tx (charCodes ":0103\r\n") 5) (asc [] 0 1000) =
    leaves (asc [] 0 1000) (.frames [frame .ascii .send (charCodes "0103") [] none none [] none none false none 5] false) := by decide +kernel

/-! ### Function-code rows: the Frames of 95_test_vectors, handed over as frames -/

/-- AR-8: exception fields whatever the checksum. -/
theorem test_exceptionResponse : run (.exceptionResponse 0x00 ⟨.ascii (charCodes "018005"), .receive, 0x01, [0x05], 0⟩) (asc [] 0 1000) =
    leaves (asc [] 0 1000) (.frames [excFrame (frame .ascii .receive (charCodes "018005") [0x01, 0x80, 0x05] (some 0x01) (some 0x80) []
      (some (.lrc 0x05)) (some (.lrc 0x7F)) false none 0) 0x00 none none] false) := by decide +kernel
/-- Rule R19: the Frame of a row has the instance's TRANSPORT, and with it that transport's checksum. -/
theorem test_row_transport :
    (nextOf (exec (.readCoils ⟨.rtu, .receive, 0x01, [0x01, 0x05, 0x91, 0x8B], 0⟩) (one (asc [] 0 50)))).map
        (fun s => s.results.map fun r => (resultFrames r.2).map fun f => (f.transport, f.raw, f.checksumReceived)) =
      some [[(.ascii, charCodes "01010105918B", some (.lrc 0x8B))]] := by decide +kernel
/-- Rule R60: the instance's TRANSPORT decides how the bytes of a frame are read. -/
theorem test_frame_of_the_other_wire_is_refused :
    fetchInstr (one (asc [] 0 50)) (.frame ⟨.receive, [0x01, 0x83, 0x02, 0xC0, 0xF1], 0⟩) = .error (.refused (.badFrame .notDelimited)) ∧
    fetchInstr { one (asc [] 0 50) with sel := 1 } (commandOf 0x00) = .error (.fault .noInstance) := ⟨rfl, rfl⟩
/-- Rules R43 and R58: the table is a parameter of the block, and the instance does not bring one. -/
theorem test_excMsg_other_table :
    (nextOf (exec (.excMsg 0x09) { one (rtu [] 0 50) with excTable := [(0x09, .gatewayPathUnavailable)] })).map
        (fun s => (s.results, s.excTable)) =
      some ([(0, .msg .gatewayPathUnavailable)], [(0x09, .gatewayPathUnavailable)]) := by decide
/-- RR-8. -/
theorem test_readCoils : run (.readCoils ⟨.rtu, .receive, 0x01, [0x01, 0x05, 0x91, 0x8B], 0⟩) (rtu [] 0 50) =
    leaves (rtu [] 0 50) (.frames [frame .rtu .receive [0x01, 0x01, 0x01, 0x05, 0x91, 0x8B] [0x01, 0x01, 0x01, 0x05, 0x91, 0x8B] (some 0x01) (some 0x01)
      [0x01, 0x05] (some (.crc 0x8B91)) (some (.crc 0x8B91)) true
      (some (.bitRead 1 [true, false, true, false, false, false, false, false])) 0] false) := by decide +kernel
/-- RR-9: the mis-sized request is not valid, so not interpreted. -/
theorem test_readDiscreteInputs : run (.readDiscreteInputs ⟨.rtu, .receive, 0x01, [0, 0, 0], 0⟩) (rtu [] 0 50) =
    leaves (rtu [] 0 50) (.frames [frame .rtu .receive [0x01, 0x02, 0, 0, 0] [0x01, 0x02, 0, 0, 0] (some 0x01) (some 0x02) [0]
      (some (.crc 0x0000)) (some (.crc 0x6021)) false none 0] false) := by decide +kernel
/-- AT-8: a send Frame is interpreted. -/
theorem test_readHoldingRegisters :
    run (.readHoldingRegisters ⟨.ascii (charCodes "01030000000AF2"), .send, 0x01, [0, 0, 0, 0x0A, 0xF2], 5⟩) (asc [] 0 50) =
    leaves (asc [] 0 50) (.frames [frame .ascii .send (charCodes "01030000000AF2") [0x01, 0x03, 0, 0, 0, 0x0A, 0xF2] (some 0x01) (some 0x03)
      [0, 0, 0, 0x0A] (some (.lrc 0xF2)) (some (.lrc 0xF2)) true (some (.readRequest 0 0x000A)) 5] false) := by decide +kernel
/-- RR-7. -/
theorem test_readInputRegisters : run (.readInputRegisters ⟨.rtu, .receive, 0x01, [0x04, 0x12, 0x34, 0xAB, 0xCD, 0x01, 0x97], 0⟩) (rtu [] 0 50) =
    leaves (rtu [] 0 50) (.frames [frame .rtu .receive [0x01, 0x04, 0x04, 0x12, 0x34, 0xAB, 0xCD, 0x01, 0x97]
      [0x01, 0x04, 0x04, 0x12, 0x34, 0xAB, 0xCD, 0x01, 0x97] (some 0x01) (some 0x04) [0x04, 0x12, 0x34, 0xAB, 0xCD]
      (some (.crc 0x9701)) (some (.crc 0x9701)) true (some (.registerRead 4 [0x1234, 0xABCD])) 0] false) := by decide +kernel
/-- RR-6. -/
theorem test_writeSingleCoil : run (.writeSingleCoil ⟨.rtu, .receive, 0x01, [0, 0xAC, 0xFF, 0, 0x4C, 0x1B], 0⟩) (rtu [] 0 50) =
    leaves (rtu [] 0 50) (.frames [frame .rtu .receive [0x01, 0x05, 0, 0xAC, 0xFF, 0, 0x4C, 0x1B] [0x01, 0x05, 0, 0xAC, 0xFF, 0, 0x4C, 0x1B]
      (some 0x01) (some 0x05) [0, 0xAC, 0xFF, 0] (some (.crc 0x1B4C)) (some (.crc 0x1B4C)) true (some (.singleWrite 0x00AC 1)) 0] false) := by
  decide +kernel
/-- L1.3, the 0x06 row. -/
theorem test_writeSingleRegister : run (.writeSingleRegister ⟨.rtu, .receive, 0x01, [0, 1, 0, 3, 0x98, 0x0B], 0⟩) (rtu [] 0 50) =
    leaves (rtu [] 0 50) (.frames [frame .rtu .receive [0x01, 0x06, 0, 1, 0, 3, 0x98, 0x0B] [0x01, 0x06, 0, 1, 0, 3, 0x98, 0x0B]
      (some 0x01) (some 0x06) [0, 1, 0, 3] (some (.crc 0x0B98)) (some (.crc 0x0B98)) true (some (.singleWrite 1 3)) 0] false) := by
  decide +kernel
/-- RR-5. -/
theorem test_diagnostics : run (.diagnostics ⟨.rtu, .receive, 0x01, [0, 0, 0xA5, 0x37, 0xDA, 0x8D], 0⟩) (rtu [] 0 50) =
    leaves (rtu [] 0 50) (.frames [frame .rtu .receive [0x01, 0x08, 0, 0, 0xA5, 0x37, 0xDA, 0x8D] [0x01, 0x08, 0, 0, 0xA5, 0x37, 0xDA, 0x8D]
      (some 0x01) (some 0x08) [0, 0, 0xA5, 0x37] (some (.crc 0x8DDA)) (some (.crc 0x8DDA)) true (some (.diagnostics 0 0xA537)) 0] false) := by
  decide +kernel
/-- RR-4. -/
theorem test_writeMultipleCoils :
    run (.writeMultipleCoils ⟨.rtu, .receive, 0x01, [0, 0x13, 0, 0x0A, 0x02, 0xCD, 0x01, 0x72, 0xCB], 0⟩) (rtu [] 0 50) =
    leaves (rtu [] 0 50) (.frames [frame .rtu .receive [0x01, 0x0F, 0, 0x13, 0, 0x0A, 0x02, 0xCD, 0x01, 0x72, 0xCB]
      [0x01, 0x0F, 0, 0x13, 0, 0x0A, 0x02, 0xCD, 0x01, 0x72, 0xCB] (some 0x01) (some 0x0F) [0, 0x13, 0, 0x0A, 0x02, 0xCD, 0x01]
      (some (.crc 0xCB72)) (some (.crc 0xCB72)) true
      (some (.multiWrite 0x0013 0x000A (some 2) (some (.bits [true, false, true, true, false, false, true, true,
        true, false, false, false, false, false, false, false])))) 0] false) := by decide +kernel
/-- L1.3, the 0x10 request. -/
theorem test_writeMultipleRegisters :
    run (.writeMultipleRegisters ⟨.rtu, .receive, 0x01, [0, 1, 0, 2, 0x04, 0, 0x0A, 0x01, 0x02, 0x92, 0x30], 0⟩) (rtu [] 0 50) =
    leaves (rtu [] 0 50) (.frames [frame .rtu .receive [0x01, 0x10, 0, 1, 0, 2, 0x04, 0, 0x0A, 0x01, 0x02, 0x92, 0x30]
      [0x01, 0x10, 0, 1, 0, 2, 0x04, 0, 0x0A, 0x01, 0x02, 0x92, 0x30] (some 0x01) (some 0x10) [0, 1, 0, 2, 0x04, 0, 0x0A, 0x01, 0x02]
      (some (.crc 0x3092)) (some (.crc 0x3092)) true (some (.multiWrite 1 2 (some 4) (some (.regs [0x000A, 0x0102])))) 0] false) := by
  decide +kernel
/-- L1.8. -/
theorem test_unknownFunction : run (.unknownFunction 0x07 ⟨.rtu, .receive, 0x11, [0, 0, 0, 0, 0xB6, 0x9A], 0⟩) (rtu [] 0 50) =
    leaves (rtu [] 0 50) (.frames [frame .rtu .receive [0x11, 0x07, 0, 0, 0, 0, 0xB6, 0x9A] [0x11, 0x07, 0, 0, 0, 0, 0xB6, 0x9A]
      (some 0x11) (some 0x07) [0, 0, 0, 0] (some (.crc 0x9AB6)) (some (.crc 0x9AB6)) true none 0] false) := by decide +kernel

/-! ### Conditions (rule R125) -/

/-- RR-1 raises 2; AR-10 raises 1, then 4; AR-14 in small raises 7. -/
theorem test_conditions :
    conditions defaultExcTable (.rx [0x01, 0x03, 0x02, 0, 0x0A, 0x38, 0x44] 0) (rtu [] 0 50) = [.checksumMismatch] ∧
    conditions defaultExcTable (.rx (charCodes ":0183027A\r\n") 1001) (asc (charCodes ":0103") 0 1000) = [.staleDiscard, .protocolException] ∧
    conditions defaultExcTable (.rx (charCodes ":000") 3) { asc [] 0 1000 with cap := 3 } = [.overflowDiscard] ∧
    conditions defaultExcTable (.rx (charCodes ":01 83027A\r\n:0") 0) (asc [] 0 1000) = [.malformedAscii, .wait] := by decide +kernel

/-! ### Witnesses: for every statement with hypotheses, concrete values that meet them, a value for each clause and its boundaries -/

/-- The instance of most witnesses: it waits, with three bytes, last received at 0, TIMEOUT 50. -/
def waiting : Inst := rtu [0x01, 0x03, 0x02] 0 50

theorem witness_addressed : Addressed (one waiting) waiting ∧ Addressed (one (asc [] 0 50)) (asc [] 0 50) := ⟨rfl, rfl⟩
theorem witness_live_none : (one waiting).live ≠ none ∧ ({ one waiting with sel := 1 } : State).live = none ∧
    ({ one waiting with insts := [none] } : State).live = none := by decide

theorem witness_IllegalExactlyWhenNotAdmitted :
    decodeCommand ⟨0x21, [], 0, 0, 0⟩ ≠ .illegal 0x21 ∧ decodeCommand ⟨0x90, [], 0, 0, 0⟩ ≠ .illegal 0x90 ∧
    decodeCommand ⟨0x91, [], 0, 0, 0⟩ = .illegal 0x91 ∧ decodeCommand ⟨0x22, [], 0, 0, 0⟩ = .illegal 0x22 ∧
    decodeCommand ⟨0xA0, [], 0, 0, 0⟩ = .illegal 0xA0 := by decide

theorem witness_DecodeOfEncodeIsTheInstruction :
    (Instr.setTimeout 50).wf = true ∧ (Instr.illegal 0xFF).wf = true ∧
    (Instr.exceptionResponse 0x7F ⟨.rtu, .receive, 0x11, [0x02, 0xC1, 0x34], 4⟩).wf = true ∧
    (Instr.readCoils ⟨.rtu, .send, 0x11, [], 4⟩).wf = true ∧
    (Instr.unknownFunction 0x00 ⟨.ascii (charCodes "110000"), .receive, 0x11, [0x00], 4⟩).wf = true ∧
    (Instr.illegal 0xFF).fits .ascii = true ∧ (Instr.readCoils ⟨.rtu, .send, 0x11, [], 4⟩).fits .rtu = true ∧
    (Instr.unknownFunction 0x00 ⟨.ascii (charCodes "110000"), .receive, 0x11, [0x00], 4⟩).fits .ascii = true ∧
    (Instr.readCoils ⟨.rtu, .send, 0x11, [], 4⟩).fits .ascii = false := by decide +kernel

theorem witness_DecodedFrameEncodesBack :
    decode .rtu (.frame ⟨.receive, [0x11, 0x83, 0x02, 0xC1, 0x34], 4⟩) =
      .ok (.exceptionResponse 0x03 ⟨.rtu, .receive, 0x11, [0x02, 0xC1, 0x34], 4⟩) ∧
    decode .ascii (.frame ⟨.send, [0x3A, 0x30, 0x31, 0x30, 0x31, 0x46, 0x45, 0x0D, 0x0A], 4⟩) =
      .ok (.readCoils ⟨.ascii [0x30, 0x31, 0x30, 0x31, 0x46, 0x45], .send, 0x01, [0xFE], 4⟩) := ⟨rfl, rfl⟩

theorem witness_FunctionCodesFallIntoTheirClass :
    classOf 0x80 = .exceptionResponse ∧ classOf 0xFF = .exceptionResponse ∧ classOf 0x00 = .unknownFunction ∧
    classOf 0x07 = .unknownFunction ∧ classOf 0x0E = .unknownFunction ∧ classOf 0x11 = .unknownFunction ∧
    classOf 0x7F = .unknownFunction := by decide

theorem witness_StepRunsTheDecodedInstruction :
    ({ one waiting with script := [.issue 0 (commandOf 0x30)] } : State).script = .issue 0 (commandOf 0x30) :: [] ∧
    Addressed { one waiting with script := [], sel := 0 } waiting ∧
    decode waiting.transport (commandOf 0x30) = .ok (.flush 0) ∧ (Instr.flush 0).wf = true := ⟨rfl, rfl, rfl, rfl⟩

theorem witness_HostMovesOpenAndCloseInstances :
    ({ one waiting with script := [.create ⟨.ascii, 7, 9⟩] } : State).script = .create ⟨.ascii, 7, 9⟩ :: [] ∧
    ({ one waiting with script := [.teardown 0] } : State).script = .teardown 0 :: [] ∧
    ({ one waiting with script := [.overlap 0 (commandOf 0) (commandOf 0)] } : State).script =
      .overlap 0 (commandOf 0) (commandOf 0) :: [] ∧
    Addressed { one waiting with script := [], sel := 0 } waiting ∧
    decode waiting.transport (.frame ⟨.receive, [], 0⟩) = .error .noFunctionCode ∧
    ({ one waiting with script := [], sel := 1 } : State).live = none ∧ (one waiting).script = [] :=
  ⟨rfl, rfl, rfl, rfl, rfl, rfl, rfl⟩

theorem witness_StepKeepsTheStateOk :
    stateOk { one waiting with script := [.issue 0 (.command ⟨0x21, [0x00], 10, 0, 0⟩)] } = true ∧
    nextOf (step { one waiting with script := [.issue 0 (.command ⟨0x21, [0x00], 10, 0, 0⟩)] }) =
      some { insts := [some (rtu [0x01, 0x03, 0x02, 0x00] 10 50)], excTable := defaultExcTable, sel := 0, script := [], results := [(0, .frames [] false)], fresh := 0 } := by
  decide +kernel

theorem witness_FlushOnlyDiscards :
    bufWaits waiting.transport waiting.buf = true ∧ isStale waiting 50 = false ∧ isStale waiting 51 = true ∧
    isStale (rtu [] 0 50) 51 = false ∧ (51 : Int) ≤ 51 := by decide

theorem witness_IllegalWordChangesNothing :
    ({ one waiting with script := [.issue 0 (commandOf 0x01)] } : State).script = .issue 0 (.command ⟨0x01, [], 0, 0, 0⟩) :: [] ∧
    legalWord 0x01 = false ∧ Addressed { one waiting with script := [], sel := 0 } waiting := ⟨rfl, rfl, rfl⟩

theorem witness_RtuFrameValidIffWholeCrcIsZero :
    4 ≤ [(0x01 : Byte), 0x03, 0x40, 0x21].length ∧ crc16 [0x01, 0x03, 0x40, 0x21] = 0 ∧
    (rtuFrameRx defaultExcTable [0x01, 0x03, 0x40, 0x21] 0).checksumValid = true ∧ (rtuFrameRx defaultExcTable [0x01, 0x03, 0x41, 0x21] 0).checksumValid = false := by
  decide +kernel

theorem witness_AsciiFrameValidIffWholeSumIsZero :
    3 ≤ [(0x01 : Byte), 0x80, 0x7F].length ∧ (asciiFrame defaultExcTable [0x01, 0x80, 0x7F] [] .receive 0).checksumValid = true ∧
    (asciiFrame defaultExcTable [0x01, 0x80, 0x05] [] .receive 0).checksumValid = false := by decide

theorem test_hexVal_boundaries :
    hexVal 0x2F = none ∧ hexVal 0x30 = some 0 ∧ hexVal 0x39 = some 9 ∧ hexVal 0x3A = none ∧ hexVal 0x40 = none ∧
    hexVal 0x41 = some 10 ∧ hexVal 0x46 = some 15 ∧ hexVal 0x47 = none ∧ hexVal 0x60 = none ∧ hexVal 0x61 = some 10 ∧
    hexVal 0x66 = some 15 ∧ hexVal 0x67 = none := by decide

theorem witness_HexDecodePairsHighNibbleFirst :
    [(0x41 : Byte)].length % 2 = 1 ∧ (∃ ch ∈ [(0x47 : Byte)], hexVal ch = none) ∧ [(0x30 : Byte), 0x41].length % 2 = 0 ∧
    (∀ ch ∈ [(0x30 : Byte), 0x41], hexVal ch ≠ none) ∧ hexDecode [0x30, 0x41] = some [0x0A] := by decide

theorem witness_HexDecodeUndoesHexEncode : hexDecode [0x41] = some [0x0A] ∧ hexDecode [] = some [] := by decide

theorem witness_InterpretOfOtherCodesIsNone :
    ∀ fc ∈ [(0x00 : Byte), 0x07, 0x09, 0x0E, 0x11, 0x7F, 0x80, 0x81, 0xFF],
      fc.toNat ∉ [0x01, 0x02, 0x03, 0x04, 0x05, 0x06, 0x08, 0x0F, 0x10] := by decide

theorem witness_PackedBits : 0 < [(0x80 : Byte)].length ∧ 7 < 8 ∧ (bitsLSB [0x80]).length = 8 ∧ (bitsLSB [0x80])[7]? = some true ∧
    (bitsLSB [0x80])[0]? = some false := by decide

theorem witness_registers : regsBE [0x12, 0x34, 0xAB] = [0x1234] ∧ 0 < [(0x12 : Byte), 0x34, 0xAB].length / 2 := by decide

theorem witness_ExceptionMessageTable :
    excMsg defaultExcTable 0x00 = .unknownError ∧ excMsg defaultExcTable 0x01 = .illegalFunction ∧ excMsg defaultExcTable 0x09 = .unknownError ∧
    excMsg defaultExcTable 0x0B = .gatewayTargetFailed ∧ excMsg [(0x02, .acknowledge), (0x09, .gatewayPathUnavailable)] 0x09 = .gatewayPathUnavailable ∧
    (∀ e ∈ ([(0x02, .acknowledge)] : ExcTable), e.1 ≠ 0x09) ∧
    excMsg defaultExcTable 0x0C = .unknownError ∧ excMsg defaultExcTable 0xFF = .unknownError := by decide

theorem witness_RtuLengthRows :
    rtuLen [0x01, 0x03, 0x02] = .undetermined ∧ rtuLen [0x01, 0x80, 0, 0] = .known 5 ∧ rtuLen [0x01, 0xFF, 0, 0] = .known 5 ∧
    rtuLen [0x01, 0x03, 0xFF, 0] = .known 260 ∧ rtuLen [0x01, 0x01, 0x00, 0] = .known 5 ∧ rtuLen [0x01, 0x05, 0, 0] = .known 8 ∧
    rtuLen [0x01, 0x08, 0, 0] = .known 8 ∧ rtuLen [0x01, 0x0F, 0, 0x13, 0, 0x0A, 0x02] = .undetermined ∧
    rtuLen [0x01, 0x0F, 0, 0x13, 0, 0x0A, 0x02, 0xCD] = .known 11 ∧ rtuLen [0, 0, 0, 0] = .known 8 ∧ rtuLen [0, 0x7F, 0, 0] = .known 8 := by
  decide

theorem witness_KnownLengthIsBoundedAndStable :
    rtuLen [0x01, 0x83, 0x02, 0xC0] = .known 5 ∧ rtuLen [0x01, 0x10, 0, 1, 0, 2, 0xFF, 0] = .known 264 := by decide

theorem witness_RtuReceiveFrameFields : 5 ≤ [(0x01 : Byte), 0x83, 0x02, 0xC0, 0xF1].length := by decide

/-- Lengths at each boundary of the send fields: 0, 1, 2, 3 and 4 bytes. -/
theorem witness_RtuSendEmitsOneFrame : (rtu [] 0 50).transport = .rtu ∧
    (rtuFrameTx defaultExcTable [] 0).checksumValid = false ∧ (rtuFrameTx defaultExcTable [0x01] 0).functionCode = none ∧ (rtuFrameTx defaultExcTable [0x01] 0).checksumValid = true ∧
    (rtuFrameTx defaultExcTable [0x01, 0x03] 0).functionCode = some 0x03 ∧ (rtuFrameTx defaultExcTable [0x01, 0x03, 0x02] 0).payload = [] ∧
    (rtuFrameTx defaultExcTable [0x01, 0x03, 0x02] 0).checksumReceived = none ∧
    (rtuFrameTx defaultExcTable [0x01, 0x03, 0x40, 0x21] 0).checksumReceived = some (.crc 0x2140) := by decide +kernel

theorem witness_AsciiFrameFields : 3 ≤ [(0x01 : Byte), 0x80, 0x7F].length := by decide

/-- Delimited text that decodes to 3 bytes, to 2, to none, and text that is not delimited. -/
theorem witness_AsciiSendEmitsOneFrame : (asc [] 0 50).transport = .ascii ∧
    hexDecode (charCodes "01807F") = some [0x01, 0x80, 0x7F] ∧ (asciiFrameTx defaultExcTable (charCodes ":01807F\r\n") 5).data = [0x01, 0x80, 0x7F] ∧
    (asciiFrameTx defaultExcTable (charCodes ":0180\r\n") 5).checksumValid = false ∧ hexDecode (charCodes "018g7F") = none ∧
    (asciiFrameTx defaultExcTable (charCodes ":\r\n") 5).raw = [] ∧ (asciiFrameTx defaultExcTable (charCodes "01807F") 5).raw = charCodes "01807F" := by decide +kernel

theorem witness_AsciiCandidateBecomesAFrame :
    (asciiCandidateRx defaultExcTable (charCodes ":01807F\r\n") 0).isSome = true ∧ asciiCandidateRx defaultExcTable (charCodes ":0180\r\n") 0 = none ∧
    asciiCandidateRx defaultExcTable (charCodes ":01ZZ\r\n") 0 = none := by decide +kernel

theorem witness_FinishSetsExceptionAndInterpreted :
    (rtuFrameRx defaultExcTable [0x01, 0x83, 0x02, 0xC0, 0xF1] 0).isException = true ∧ (rtuFrameRx defaultExcTable [0x01, 0x7F, 0, 0, 0, 0, 0, 0] 0).isException = false := by
  decide +kernel

theorem witness_RtuExtractionLoop :
    [(0x01 : Byte), 0x83, 0x02].length < 4 ∧ rtuLen [0x01, 0x0F, 0, 0x13, 0, 0x0A, 0x02] = .undetermined ∧
    rtuLen [0x01, 0x83, 0x02, 0xC0] = .known 5 ∧ [(0x01 : Byte), 0x83, 0x02, 0xC0].length < 5 ∧
    rtuLen [0x01, 0x83, 0x02, 0xC0, 0xF1] = .known 5 ∧ 5 ≤ [(0x01 : Byte), 0x83, 0x02, 0xC0, 0xF1].length := by decide

theorem witness_AsciiExtractionLoop :
    (0x3A : Byte) ∉ charCodes "abc\r\n" ∧ (0x3A : Byte) ∉ charCodes "xx" ∧ hasCrlf (charCodes "0103\r") = false ∧
    hasCrlf (charCodes "0183027A\r") = false ∧ hasCrlf (charCodes "01:02\r\r") = false := by decide +kernel

theorem witness_StalePassEmitsNothing :
    bufWaits waiting.transport waiting.buf = true ∧ bufWaits .ascii (charCodes ":0103\r") = true ∧ bufWaits .ascii [] = true := by
  decide +kernel

theorem witness_RtuFramesAndResidualAreBounded : ∃ f ∈ (rtuExtract defaultExcTable [0x01, 0x83, 0x02, 0xC0, 0xF1, 0x01] 0).1, f.raw.length = 5 :=
  ⟨rtuFrameRx defaultExcTable [0x01, 0x83, 0x02, 0xC0, 0xF1] 0, List.mem_singleton.mpr rfl, rfl⟩

theorem witness_RtuNeverOverflows : waiting.transport = .rtu ∧ waiting.cap = 264 := by decide

theorem witness_ExtractionKeepsTheByteOrder :
    (asciiExtract defaultExcTable (charCodes "xx:01807F\r\n:zz\r\n:010203\r\n:") 0).1.map Frame.raw = [charCodes "01807F", charCodes "010203"] ∧
    (asciiExtract defaultExcTable (charCodes "xx:01807F\r\n:zz\r\n:010203\r\n:") 0).2 = charCodes ":" := by
  decide +kernel

/-- Two fragments with the gap at its bound, then the whole. -/
theorem witness_RtuFragmentationDoesNotMatter :
    waiting.transport = .rtu ∧ waiting.cap = 264 ∧ bufWaits waiting.transport waiting.buf = true ∧
    gapsWithin waiting.timeout waiting.lastT [([0, 0x0A], 50), ([0x38, 0x43], 100)] = true ∧
    (50 : Int) - waiting.lastT ≤ (waiting.timeout : Int) ∧
    (rxAll defaultExcTable waiting [([0, 0x0A], 50), ([0x38, 0x43], 100)]).2.1.length = 1 := by decide +kernel

theorem witness_FragmentationDoesNotMatterBelowTheCap :
    bufWaits .ascii (charCodes ":01") = true ∧ (charCodes ":01").length ≤ 513 ∧
    gapsWithin 50 0 [(charCodes "807F\r", 50), (charCodes "\n:", 60)] = true ∧
    (rxAll defaultExcTable (asc (charCodes ":01") 0 50) [(charCodes "807F\r", 50), (charCodes "\n:", 60)]).2.2 = false ∧
    (rxAll defaultExcTable (asc (charCodes ":01") 0 50) [(charCodes "807F\r", 50), (charCodes "\n:", 60)]).2.1.length = 1 := by decide +kernel

theorem witness_RtuRoundTrip :
    (rtu [] 0 50).transport = .rtu ∧ (rtu [] 0 50).buf = [] ∧
    rtuLen ([(0x01 : Byte), 0x83, 0x02] ++ [(crc16 [0x01, 0x83, 0x02]).setWidth 8, (crc16 [0x01, 0x83, 0x02] >>> 8).setWidth 8]) = .known (3 + 2) ∧
    rtuLen ([(0x01 : Byte), 0x01, 0x00] ++ [(crc16 [0x01, 0x01, 0x00]).setWidth 8, (crc16 [0x01, 0x01, 0x00] >>> 8).setWidth 8]) = .known (3 + 2) ∧
    interpret 0x01 [0x00] = some (.bitRead 0 []) := by
  decide +kernel

theorem witness_AsciiRoundTrip : (asc [] 0 50).transport = .ascii ∧ (asc [] 0 50).buf = [] ∧ 2 ≤ [(0x01 : Byte), 0x80].length ∧
    interpret 0x04 [] = none ∧ interpret 0x04 [0x00] = some (.registerRead 0 []) ∧ interpret 0x05 [0, 0, 0] = none := by decide

theorem witness_EmptyReceiveRefreshesTheTime : instOk waiting = true ∧ isStale waiting 50 = false ∧ isStale waiting (-7) = false := by decide

/-- An RX that emits a read Frame and an exception Frame: each clause has a Frame it is about. -/
theorem witness_EmittedFramesKeepTheInvariants :
    (nextOf (exec (.rx [0x00, 0x0A, 0x38, 0x43, 0x01, 0x83, 0x02, 0xC0, 0xF1] 0) (one waiting))).map
        (fun s => s.results.map fun r => (resultFrames r.2).map fun f => (f.interpreted.isSome, f.exceptionCode)) =
      some [[(true, none), (false, some 0x02)]] := by decide +kernel

theorem witness_UnspecifiedTimeIsNeverObserved :
    Addressed (one (rtu [] 0 50)) (rtu [] 0 50) ∧ Addressed (one (rtu [] 7 50)) { rtu [] 0 50 with lastT := 7 } ∧ (rtu [] 0 50).buf = [] ∧
    (one (rtu [] 0 50)).results = (one (rtu [] 7 50)).results ∧ (one (rtu [] 0 50)).excTable = (one (rtu [] 7 50)).excTable :=
  ⟨rfl, rfl, rfl, rfl, rfl⟩

/-- A recognized row, valid and not valid, an exception row and an unknown row. -/
theorem witness_FunctionRows :
    (rtuFrameRx defaultExcTable [0x01, 0x01, 0x01, 0x05, 0x91, 0x8B] 0).checksumValid = true ∧
    (rtuFrameRx defaultExcTable [0x01, 0x01, 0x01, 0x05, 0x91, 0x8C] 0).checksumValid = false ∧
    fnInstr 0x80 ⟨.rtu, .send, 0x01, [], 0⟩ = .exceptionResponse 0x00 ⟨.rtu, .send, 0x01, [], 0⟩ ∧
    fnInstr 0x07 ⟨.rtu, .send, 0x01, [], 0⟩ = .unknownFunction 0x07 ⟨.rtu, .send, 0x01, [], 0⟩ := by decide +kernel

/-- Two instances, the second addressed: the hypothesis of the frame statements. -/
theorem witness_OnlyTheAddressedInstanceChanges :
    (nextOf (exec (.setTimeout 9) { one waiting with insts := [some waiting, some (asc [] 0 50)], sel := 1 })).map (·.insts) =
      some [some waiting, some (asc [] 0 9)] ∧
    (nextOf (step { one waiting with script := [.create ⟨.ascii, 7, 9⟩] })).map (·.excTable) = some defaultExcTable := by decide

theorem witness_FieldsHaveTheirWriters :
    Addressed (one waiting) waiting ∧ (nextOf (exec (.flush 51) (one waiting))).map (·.insts) = some [some (rtu [] 0 50)] ∧
    (∀ v, Instr.flush 51 ≠ .setTimeout v) ∧ Instr.flush 51 ≠ .reset ∧ (∀ xs t, Instr.flush 51 ≠ .rx xs t) ∧
    (∀ xs t, Instr.crc16 [] ≠ .rx xs t) ∧ (∀ t, Instr.crc16 [] ≠ .flush t) :=
  ⟨rfl, rfl, by simp, by simp, by simp, by simp, by simp⟩

theorem witness_AnswerDependsOnTheAddressedInstanceAlone :
    (one waiting).live = ({ one waiting with insts := [none, some waiting], sel := 1 } : State).live ∧
    (one waiting).excTable = ({ one waiting with insts := [none, some waiting], sel := 1 } : State).excTable ∧
    (one waiting).fresh = ({ one waiting with insts := [none, some waiting], sel := 1 } : State).fresh ∧
    (nextOf (exec (.tx [] 0) (one waiting))).isSome = true := by decide

theorem witness_ConditionsHaveTheirCauses :
    Condition.overflowDiscard ∈ conditions defaultExcTable (.rx (charCodes ":000") 3) { asc [] 0 1000 with cap := 3 } ∧
    Condition.overflowDiscard ∉ conditions defaultExcTable (.rx (charCodes ":00") 3) { asc [] 0 1000 with cap := 3 } ∧
    Condition.staleDiscard ∈ conditions defaultExcTable (.flush 51) waiting ∧ Condition.staleDiscard ∉ conditions defaultExcTable (.flush 50) waiting ∧
    Condition.sendNoAddress ∈ conditions defaultExcTable (.tx [] 0) waiting ∧ Condition.sendNoAddress ∉ conditions defaultExcTable (.tx [] 0) (asc [] 0 50) ∧
    Condition.malformedAscii ∈ conditions defaultExcTable (.tx [] 0) (asc [] 0 50) ∧
    Condition.malformedAscii ∈ conditions defaultExcTable (.tx (charCodes "010302000AF0\r\n") 5) (asc [] 0 50) ∧
    Condition.malformedAscii ∉ conditions defaultExcTable (.tx (charCodes ":010302000AF0\r\n") 5) (asc [] 0 50) ∧ Condition.malformedAscii ∈ conditions defaultExcTable (.rx (charCodes ":01\r\n") 0) (asc [] 0 50) ∧
    Condition.wait ∈ conditions defaultExcTable (.rx [0] 9) waiting ∧ Condition.wait ∉ conditions defaultExcTable (.flush 9) waiting ∧
    conditions defaultExcTable (.rx [0x01, 0x83, 0x02, 0x00, 0x00] 9) (rtu [] 0 50) = [.checksumMismatch, .protocolException] ∧
    conditions defaultExcTable (.tx [0x01, 0x07] 9) waiting = [.unknownFunction] := by
  decide +kernel

/-- Every row's first word runs as the first instruction after reset, on the RTU and on the ASCII instance. -/
theorem test_table_words_run :
    ([0x00, 0x10, 0x20, 0x21, 0x30, 0x40, 0x50, 0x60, 0x70, 0x80, 0x90, 0x01, 0x02, 0x03, 0x04, 0x05, 0x06, 0x08, 0x0F, 0x07, 0x81].all
      fun w => (nextOf (step (State.reset.withFetchWord 8 w))).isSome &&
        (nextOf (step (({ State.reset with sel := 1 } : State).withFetchWord 8 w))).isSome) = true := by decide +kernel

end Sys2Proof.Tests
end

/-! # The state: what every instruction and every step keeps (10_state, rules R12 to R26)

The order: what one instruction does (`effect`, tied to `exec` by `exec_eq_onInst`), what one step can do (`step_next`, `decode_cases`), what the framers emit (`frameOk`), and after them the statements. -/

namespace Sys2Proof.Machine

/-! ### One instruction: its effect on the addressed Inst -/

/-- What `i` leaves of the addressed Inst, and what it answers: every meaning of `exec` as a function of the exception-code table, the free value `t` and the Inst alone (rule R12). -/
def effect (tbl : ExcTable) (t : Int) (I : Inst) : Instr → Inst × Result
  | .reset => (resetInst I t, .ok)
  | .setTimeout value => ({ I with timeout := value }, .ok)
  | .tx data now => (I, .frames [sendFrame tbl I.transport data now] false)
  | .rx data now => ((recvIngest tbl I data now).1, .frames (recvIngest tbl I data now).2.1 (recvIngest tbl I data now).2.2)
  | .flush now => ((stalePass tbl I now).2, .frames (stalePass tbl I now).1 false)
  | .crc16 data => (I, .crc (crc16 data))
  | .lrc data => (I, .lrc (lrc data))
  | .hexDecode data => (I, .bytes (hexDecode data))
  | .interpret fc data => (I, .payload (interpret fc data))
  | .excMsg code => (I, .msg (excMsg tbl code))
  | .rtuLen data => (I, .length (rtuLen data))
  | .illegal _ => (I, .illegal)
  | .exceptionResponse original w => (I, .frames [fnException tbl I.transport w original] false)
  | .readCoils w => (I, .frames [fnFrame I.transport w 0x01 interp01] false)
  | .readDiscreteInputs w => (I, .frames [fnFrame I.transport w 0x02 interp02] false)
  | .readHoldingRegisters w => (I, .frames [fnFrame I.transport w 0x03 interp03] false)
  | .readInputRegisters w => (I, .frames [fnFrame I.transport w 0x04 interp04] false)
  | .writeSingleCoil w => (I, .frames [fnFrame I.transport w 0x05 interp05] false)
  | .writeSingleRegister w => (I, .frames [fnFrame I.transport w 0x06 interp06] false)
  | .diagnostics w => (I, .frames [fnFrame I.transport w 0x08 interp08] false)
  | .writeMultipleCoils w => (I, .frames [fnFrame I.transport w 0x0F interp0F] false)
  | .writeMultipleRegisters w => (I, .frames [fnFrame I.transport w 0x10 interp10] false)
  | .unknownFunction fc w => (I, .frames [fnFrame I.transport w fc fun _ => none] false)

/-- The free values an instruction uses: one for RESET, none for any other (log entry 6). -/
def countFree (i : Instr) (s : State) : State := if i = .reset then s.useFree else s

section
variable (i : Instr) (s : State)

@[simp] theorem countFree_insts : (countFree i s).insts = s.insts := by unfold countFree; split <;> rfl
@[simp] theorem countFree_excTable : (countFree i s).excTable = s.excTable := by unfold countFree; split <;> rfl
@[simp] theorem countFree_sel : (countFree i s).sel = s.sel := by unfold countFree; split <;> rfl
@[simp] theorem countFree_script : (countFree i s).script = s.script := by unfold countFree; split <;> rfl
@[simp] theorem countFree_results : (countFree i s).results = s.results := by unfold countFree; split <;> rfl
@[simp] theorem countFree_live : (countFree i s).live = s.live := by unfold countFree; split <;> rfl
@[simp] theorem countFree_fresh : (countFree i s).fresh = if i = .reset then s.fresh + 1 else s.fresh := by
  unfold countFree; split <;> rfl

end

/-- After an instruction the addressed Inst is the one it left. -/
theorem live_commit_countFree {s : State} {J : Inst} (h : s.live = some J) (i : Instr) (I : Inst) (r : Result) :
    ((countFree i s).commit I r).live = some I :=
  State.live_commit ((countFree_live i s).trans h) I r

/-- An instruction appends one result, under the number of the addressed Inst. -/
theorem results_commit_countFree (i : Instr) (s : State) (I : Inst) (r : Result) :
    ((countFree i s).commit I r).results = s.results ++ [(s.sel, r)] := by
  simp

/-- Every meaning is its effect on the addressed Inst, committed. -/
theorem exec_eq_onInst (i : Instr) (s : State) :
    exec i s = onInst (countFree i s) fun I => effect s.excTable (Config.freeTime s.fresh) I i := by
  cases i <;> rfl

/-- With the addressed Inst at hand every instruction completes, with its effect. -/
theorem exec_live {s : State} {I : Inst} (h : s.live = some I) (i : Instr) :
    exec i s = .next ((countFree i s).commit (effect s.excTable (Config.freeTime s.fresh) I i).1
      (effect s.excTable (Config.freeTime s.fresh) I i).2) := by
  rw [exec_eq_onInst]
  exact onInst_live (by simpa using h) _

/-- An instruction gives a next state only with the addressed Inst at hand, and then its effect. -/
theorem exec_next {i : Instr} {s s' : State} (h : exec i s = .next s') :
    ∃ I, s.live = some I ∧ s' = (countFree i s).commit (effect s.excTable (Config.freeTime s.fresh) I i).1
      (effect s.excTable (Config.freeTime s.fresh) I i).2 := by
  rw [exec_eq_onInst] at h
  obtain ⟨I, hI, rfl⟩ := onInst_next h
  exact ⟨I, by simpa using hI, rfl⟩

/-! ### One step: the host's move, and what a decoded issue is -/

/-- An issue that is fetched runs on the state with the move taken and `k` addressed. -/
theorem step_issue {s : State} {k : Nat} {w : Issue} {rest : List HostMove} {i : Instr} (hs : s.script = .issue k w :: rest)
    (hi : fetchInstr (addressInst k rest s) w = .ok i) : step s = exec i (addressInst k rest s) := by
  simp [step, hs, hi]

/-- The four ways a step gives a next state (rules R12, R116, R117, R124): waiting, a creation, a teardown, an instruction that is fetched and completes. -/
theorem step_next {s s' : State} (h : step s = .next s') :
    (s.script = [] ∧ s' = s) ∨
    (∃ p rest, s.script = .create p :: rest ∧ s' = createInst p { s with script := rest }) ∨
    (∃ k rest, s.script = .teardown k :: rest ∧ s' = teardownInst k { s with script := rest }) ∨
    ∃ k w rest i, s.script = .issue k w :: rest ∧ fetchInstr (addressInst k rest s) w = .ok i ∧
      exec i (addressInst k rest s) = .next s' := by
  unfold step at h
  split at h
  next hs => exact .inl ⟨hs, by simpa using h.symm⟩
  next p rest hs => exact .inr (.inl ⟨p, rest, hs, by simpa using h.symm⟩)
  next k rest hs => exact .inr (.inr (.inl ⟨k, rest, hs, by simpa using h.symm⟩))
  next k w rest hs =>
    split at h
    next i hi => exact .inr (.inr (.inr ⟨k, w, rest, i, hs, hi, h⟩))
    next stop hstop => rcases fetchInstr_error hstop with rfl | ⟨e, rfl⟩ <;> cases h
  next => cases h

/-- A binary frame that decodes is the row of its byte 1, on a frame that is well formed for it. -/
theorem decodeContent_ok {wire : Wire} {dir : Direction} {content : List Byte} {now : Int} {i : Instr}
    (h : decodeContent wire dir content now = .ok i) :
    ∃ addr fc body, content = addr :: fc :: body ∧ FnFrame.wf ⟨wire, dir, addr, body, now⟩ fc = true ∧
      i = fnInstr fc ⟨wire, dir, addr, body, now⟩ := by
  unfold decodeContent at h
  split at h
  next addr fc body =>
    dsimp only at h
    split at h
    next hw => exact ⟨addr, fc, body, rfl, hw, by simpa using h.symm⟩
    next => cases h
  next => cases h

/-- A frame that decodes on a wire of transport `tr` is a row, on a well-formed frame that stands on that wire (rules R57 and R60). -/
theorem decodeFrame_ok {tr : Transport} {f : FrameWord} {i : Instr} (h : decodeFrame tr f = .ok i) :
    ∃ fc w, w.wf fc = true ∧ w.fits tr = true ∧ i = fnInstr fc w := by
  unfold decodeFrame at h
  split at h
  next =>
    obtain ⟨addr, fc, body, -, hw, rfl⟩ := decodeContent_ok h
    exact ⟨fc, _, hw, rfl, rfl⟩
  next =>
    split at h
    next =>
      split at h
      next =>
        obtain ⟨addr, fc, body, -, hw, rfl⟩ := decodeContent_ok h
        exact ⟨fc, _, hw, rfl, rfl⟩
      next => cases h
    next => cases h

/-- What an issue that decodes is: a command word, or a function-code row on a frame of that wire. -/
theorem decode_cases {tr : Transport} {w : Issue} {i : Instr} (h : decode tr w = .ok i) :
    (∃ c, i = decodeCommand c) ∨ ∃ fc w, w.wf fc = true ∧ w.fits tr = true ∧ i = fnInstr fc w := by
  cases w with
  | command c => exact .inl ⟨c, by simpa [decode] using h.symm⟩
  | frame f => exact .inr (decodeFrame_ok h)

/-! ### Function codes -/

/-- The one function code of a recognized class (rule R57). -/
def classCode : FnClass → Option Byte
  | .readCoils => some 0x01
  | .readDiscreteInputs => some 0x02
  | .readHoldingRegisters => some 0x03
  | .readInputRegisters => some 0x04
  | .writeSingleCoil => some 0x05
  | .writeSingleRegister => some 0x06
  | .diagnostics => some 0x08
  | .writeMultipleCoils => some 0x0F
  | .writeMultipleRegisters => some 0x10
  | .exceptionResponse => none
  | .unknownFunction => none

/-- A code of a recognized class is the code of its class. -/
theorem eq_of_classCode {fc c : Byte} (h : classCode (classOf fc) = some c) : fc = c := by
  unfold classOf at h
  split_ifs at h <;> simp_all [classCode]

/-- The exception class is the upper half of the codes (rule R57). -/
theorem classOf_exception_iff : ∀ fc : Byte, classOf fc = .exceptionResponse ↔ 0x80 ≤ fc.toNat := by
  decide +kernel

/-- The original function of an exception code gives the code back, and is the code without bit 7 (rule R100). -/
theorem exceptionFc_original : ∀ fc : Byte, 0x80 ≤ fc.toNat →
    exceptionFc (BitVec.ofNat 7 (fc.toNat - 0x80)) = fc ∧ (BitVec.ofNat 7 (fc.toNat - 0x80)).setWidth 8 = fc - 0x80 := by
  decide +kernel

/-! ### The interpreter: when a payload is long enough (rules R20 (b) and R98) -/

theorem interpBits_isSome (p : List Byte) : (interpBits p).isSome = decide (1 ≤ p.length) := by
  unfold interpBits; split <;> simp

theorem interpRegs_isSome (p : List Byte) : (interpRegs p).isSome = decide (1 ≤ p.length) := by
  unfold interpRegs; split <;> simp

theorem interpMulti_isSome (unpack : List Byte → MultiValues) (p : List Byte) :
    (interpMulti unpack p).isSome = decide (4 ≤ p.length) := by
  rcases p with _ | ⟨a, _ | ⟨b, _ | ⟨c, _ | ⟨d, _ | ⟨e, rest⟩⟩⟩⟩⟩ <;> simp [interpMulti]

theorem interp05_isSome (p : List Byte) : (interp05 p).isSome = decide (4 ≤ p.length) := by
  rcases p with _ | ⟨a, _ | ⟨b, _ | ⟨c, _ | ⟨d, rest⟩⟩⟩⟩ <;> simp [interp05]

theorem interp06_isSome (p : List Byte) : (interp06 p).isSome = decide (4 ≤ p.length) := by
  rcases p with _ | ⟨a, _ | ⟨b, _ | ⟨c, _ | ⟨d, rest⟩⟩⟩⟩ <;> simp [interp06]

theorem interp08_isSome (p : List Byte) : (interp08 p).isSome = decide (4 ≤ p.length) := by
  rcases p with _ | ⟨a, _ | ⟨b, _ | ⟨c, _ | ⟨d, rest⟩⟩⟩⟩ <;> simp [interp08]

/-- INTERPRET has a value exactly for a recognized code with a payload long enough for its shape. -/
theorem interpret_isSome (fc : Byte) (p : List Byte) : (interpret fc p).isSome = interpretable (some fc) p := by
  cases h : classOf fc <;>
    simp [interpret, interpretable, minPayload, h, interp01, interp02, interp03, interp04, interp0F, interp10, interpBits_isSome,
      interpRegs_isSome, interpMulti_isSome, interp05_isSome, interp06_isSome, interp08_isSome]

/-- The least payloads by code. -/
theorem minPayload_eq : ∀ c : Byte, minPayload c = if c.toNat ∈ [0x01, 0x02, 0x03, 0x04] then some 1
    else if c.toNat ∈ [0x05, 0x06, 0x08, 0x0F, 0x10] then some 4 else none := by
  decide +kernel

/-- The recognized codes with their least payloads, as rule R20 (b) lists them. -/
theorem interpretable_iff (fc : Option Byte) (p : List Byte) :
    interpretable fc p = true ↔ ∃ c, fc = some c ∧
      ((c.toNat ∈ [0x01, 0x02, 0x03, 0x04] ∧ 1 ≤ p.length) ∨ (c.toNat ∈ [0x05, 0x06, 0x08, 0x0F, 0x10] ∧ 4 ≤ p.length)) := by
  cases fc with
  | none => simp [interpretable]
  | some c =>
    simp only [interpretable, Option.bind_some, minPayload_eq, Option.some.injEq, exists_eq_left']
    split_ifs with h1 h2
    · simp only [h1, decide_eq_true_eq, true_and]
      omega
    · simp [h1, h2]
    · simp [h1, h2]

/-! ### `finish`, case by case (rules R99 to R101) -/

theorem finish_noCode {f : Frame} (h : f.functionCode = none) (tbl : ExcTable) :
    finish tbl f = { noException f with interpreted := none } := by
  simp [finish, setInterpreted, excFields, noException, h]

theorem finish_exception {f : Frame} {fc : Byte} (h : f.functionCode = some fc) (hfc : 0x80 ≤ fc.toNat) (tbl : ExcTable) :
    finish tbl f = { asException tbl (fc - 0x80) f with interpreted := none } := by
  simp [finish, setInterpreted, excFields, asException, h, hfc]

theorem finish_regular {f : Frame} {fc : Byte} (h : f.functionCode = some fc) (hfc : ¬ 0x80 ≤ fc.toNat) (tbl : ExcTable) :
    finish tbl f = { noException f with interpreted := if f.checksumValid then interpret fc f.payload else none } := by
  simp [finish, setInterpreted, excFields, noException, h, hfc]

/-- A finished Frame of sufficient length satisfies the Frame invariants (rule R20). -/
theorem frameOk_finish {f : Frame} (h : f.direction = .send ∨ minData f.transport ≤ f.data.length) (tbl : ExcTable) :
    frameOk (finish tbl f) = true := by
  cases hf : f.functionCode with
  | none =>
    rw [finish_noCode hf]
    simp [frameOk, noException, interpretable, hf, h]
  | some fc =>
    by_cases hfc : 0x80 ≤ fc.toNat
    · rw [finish_exception hf hfc]
      cases hp : f.payload <;> simp [frameOk, asException, hf, hfc, h, hp]
    · rw [finish_regular hf hfc]
      cases hv : f.checksumValid <;> simp [frameOk, noException, hf, hfc, h, hv, interpret_isSome]

end Sys2Proof.Machine

namespace Sys2Proof.Machine

/-! ### The function-code rows: each emits the finished Frame of its framer (rules R19, R57, R99) -/

/-- The Frame fields of a row carry the row's code as byte 1. -/
@[simp] theorem fnBase_functionCode (tr : Transport) (w : FnFrame) (fc : Byte) : (fnBase tr w fc).functionCode = some fc := by
  unfold fnBase; split <;> rfl

@[simp] theorem fnBase_transport (tr : Transport) (w : FnFrame) (fc : Byte) : (fnBase tr w fc).transport = tr := by
  unfold fnBase; split <;> rfl

@[simp] theorem fnBase_direction (tr : Transport) (w : FnFrame) (fc : Byte) : (fnBase tr w fc).direction = w.direction := by
  obtain ⟨wire, dir, addr, body, now⟩ := w
  cases tr <;> cases dir <;> rfl

@[simp] theorem fnBase_data (tr : Transport) (w : FnFrame) (fc : Byte) : (fnBase tr w fc).data = w.content fc := by
  unfold fnBase; split <;> rfl

/-- A row that is no exception response emits its framer's Frame, when its decode is the interpreter's of its code. -/
theorem fnFrame_eq_finish {fc : Byte} {decodePayload : List Byte → Option InterpretedPayload} (hfc : ¬ 0x80 ≤ fc.toNat)
    (hd : interpret fc = decodePayload) (tbl : ExcTable) (tr : Transport) (w : FnFrame) :
    fnFrame tr w fc decodePayload = finish tbl (fnBase tr w fc) := by
  rw [finish_regular (fnBase_functionCode tr w fc) hfc, hd]
  rfl

/-- The exception row emits its framer's Frame of the exception code. -/
theorem fnException_eq_finish {fc : Byte} (hfc : 0x80 ≤ fc.toNat) (tbl : ExcTable) (tr : Transport) (w : FnFrame) :
    fnException tbl tr w (BitVec.ofNat 7 (fc.toNat - 0x80)) = finish tbl (fnBase tr w fc) := by
  obtain ⟨hback, horig⟩ := exceptionFc_original fc hfc
  rw [finish_exception (fnBase_functionCode tr w fc) hfc, fnException, hback, horig]

/-- Whatever its code, a function-code row leaves the addressed Inst as it is and emits exactly the Frame that its framer builds. -/
theorem effect_fnInstr (tbl : ExcTable) (t : Int) (I : Inst) (fc : Byte) (w : FnFrame) :
    effect tbl t I (fnInstr fc w) = (I, .frames [finish tbl (fnBase I.transport w fc)] false) := by
  by_cases hfc : 0x80 ≤ fc.toNat
  · have hc := (classOf_exception_iff fc).2 hfc
    simp [fnInstr, hc, effect, fnException_eq_finish hfc]
  · have hx : classOf fc ≠ .exceptionResponse := mt (classOf_exception_iff fc).1 hfc
    have row : ∀ d, interpret fc = d → fnFrame I.transport w fc d = finish tbl (fnBase I.transport w fc) := fun d hd =>
      fnFrame_eq_finish hfc hd tbl _ w
    cases hc : classOf fc with
    | exceptionResponse => exact absurd hc hx
    | unknownFunction =>
      simp only [fnInstr, hc, effect]
      rw [row _ (by funext p; simp [interpret, hc])]
    | _ =>
      have he := eq_of_classCode (fc := fc) (by rw [hc]; rfl)
      subst he
      exact congrArg (fun f => (I, Result.frames [f] false)) (row _ rfl)

/-! ### The Frames the framers emit satisfy rule R20 -/

theorem frameOk_rtuFrameTx (tbl : ExcTable) (xs : List Byte) (now : Int) : frameOk (rtuFrameTx tbl xs now) = true :=
  frameOk_finish (.inl rfl) tbl

theorem frameOk_rtuFrameRx {d : List Byte} (h : 4 ≤ d.length) (tbl : ExcTable) (now : Int) : frameOk (rtuFrameRx tbl d now) = true :=
  frameOk_finish (f := rtuFieldsRx d now) (.inr h) tbl

theorem frameOk_asciiFrame {c : List Byte} (h : 3 ≤ c.length) (tbl : ExcTable) (raw : List Byte) (dir : Direction) (now : Int) :
    frameOk (asciiFrame tbl c raw dir now) = true :=
  frameOk_finish (f := asciiFields c raw dir now) (.inr h) tbl

theorem frameOk_asciiFailTx (raw : List Byte) (now : Int) : frameOk (asciiFailTx raw now) = true := by
  simp [frameOk, asciiFailTx, interpretable]

/-- The one Frame of INGEST send is a good one, whatever the operand (rules R78, R92, R93). -/
theorem frameOk_sendFrame (tbl : ExcTable) (tr : Transport) (xs : List Byte) (now : Int) : frameOk (sendFrame tbl tr xs now) = true := by
  cases tr with
  | rtu => exact frameOk_rtuFrameTx tbl xs now
  | ascii =>
    simp only [sendFrame, asciiFrameTx]
    split
    · split
      · split
        next h => exact frameOk_asciiFrame h tbl _ _ now
        next => exact frameOk_asciiFailTx _ now
      · exact frameOk_asciiFailTx _ now
    · exact frameOk_asciiFailTx _ now

/-- Every RTU slice has at least the 5 bytes of the least known length (rule R69). -/
theorem rtuSlices_length_ge (buf : List Byte) : ∀ d ∈ (rtuSlices buf).1, 5 ≤ d.length := by
  induction buf using rtu_induction with
  | waits buf h => simp [rtuSlices_waits h]
  | slice buf n h hn ih =>
    rw [rtuSlices_slice h hn]
    intro d hd
    rcases List.mem_cons.1 hd with rfl | hd
    · have := rtuLen_known_ge h
      rw [List.length_take]; omega
    · exact ih d hd

/-- A candidate that becomes a Frame decodes to at least 3 bytes (rule R90). -/
theorem asciiCandidateRx_some {tbl : ExcTable} {cand : List Byte} {now : Int} {f : Frame}
    (h : asciiCandidateRx tbl cand now = some f) :
    ∃ c raw, 3 ≤ c.length ∧ f = asciiFrame tbl c raw .receive now := by
  unfold asciiCandidateRx at h
  dsimp only at h
  split at h
  next => cases h
  next c _ =>
    split at h
    next => cases h
    next hc => exact ⟨c, _, by omega, by simpa using h.symm⟩

/-- Every Frame of an extraction is a good one (rules R77, R90, R95). -/
theorem frameOk_extract (tbl : ExcTable) (tr : Transport) (buf : List Byte) (now : Int) :
    ∀ f ∈ (extract tbl tr buf now).1, frameOk f = true := by
  intro f hf
  cases tr with
  | rtu =>
    obtain ⟨d, hd, rfl⟩ := List.mem_map.1 hf
    have := rtuSlices_length_ge buf d hd
    exact frameOk_rtuFrameRx (by omega) tbl now
  | ascii =>
    obtain ⟨cand, -, hcand⟩ := List.mem_filterMap.1 hf
    obtain ⟨c, raw, hc, rfl⟩ := asciiCandidateRx_some hcand
    exact frameOk_asciiFrame hc tbl raw .receive now

theorem frameOk_stalePass (tbl : ExcTable) (I : Inst) (now : Int) : ∀ f ∈ (stalePass tbl I now).1, frameOk f = true := by
  rcases stalePass_cases tbl I now with ⟨-, h⟩ | ⟨-, h⟩ <;> rw [h]
  · exact frameOk_extract tbl _ _ now
  · simp

theorem frameOk_recvIngest (tbl : ExcTable) (I : Inst) (xs : List Byte) (now : Int) :
    ∀ f ∈ (recvIngest tbl I xs now).2.1, frameOk f = true := by
  intro f hf
  rcases List.mem_append.1 hf with hf | hf
  · exact frameOk_stalePass tbl I now f hf
  · exact frameOk_extract tbl _ _ now f hf

/-- RX, TX and FLUSH emit good Frames only, on every Inst. -/
theorem frameOk_framer {i : Instr} (hi : (∃ xs t, i = .rx xs t) ∨ (∃ xs t, i = .tx xs t) ∨ ∃ t, i = .flush t)
    (tbl : ExcTable) (t : Int) (I : Inst) : ∀ f ∈ resultFrames (effect tbl t I i).2, frameOk f = true := by
  rcases hi with ⟨xs, now, rfl⟩ | ⟨xs, now, rfl⟩ | ⟨now, rfl⟩
  · exact frameOk_recvIngest tbl I xs now
  · simpa [effect, resultFrames] using frameOk_sendFrame tbl I.transport xs now
  · exact frameOk_stalePass tbl I now

/-- A command word emits good Frames only: those of RX, TX and FLUSH, and none for any other. -/
theorem frameOk_command (c : Command) (tbl : ExcTable) (t : Int) (I : Inst) :
    ∀ f ∈ resultFrames (effect tbl t I (decodeCommand c)).2, frameOk f = true := by
  have framer := fun i hi => frameOk_framer (i := i) hi tbl t I
  unfold decodeCommand
  split
  · split
    case h_3 =>
      split
      · exact framer _ (.inr (.inl ⟨_, _, rfl⟩))
      · exact framer _ (.inl ⟨_, _, rfl⟩)
    case h_4 => exact framer _ (.inr (.inr ⟨_, rfl⟩))
    all_goals simp [effect, resultFrames]
  · simp [effect, resultFrames]

/-- A well-formed frame that stands on the wire of `tr` has the least length of its transport (rule R20 (a)). -/
theorem minData_le_content {w : FnFrame} {fc : Byte} {tr : Transport} (hwf : w.wf fc = true) (hfits : w.fits tr = true) :
    w.direction = .send ∨ minData tr ≤ (w.content fc).length := by
  obtain ⟨wire, dir, addr, body, now⟩ := w
  cases dir with
  | send => exact .inl rfl
  | receive =>
    right
    cases tr <;> cases wire <;> simp only [FnFrame.fits, Bool.false_eq_true] at hfits
    · have := rtuLen_known_ge (of_decide_eq_true hwf)
      simp only [minData]; omega
    · have := (Bool.and_eq_true_iff.1 hwf).2
      exact of_decide_eq_true this

/-- A function-code row emits a good Frame, on an Inst whose wire its well-formed frame stands on. -/
theorem frameOk_row {w : FnFrame} {fc : Byte} {I : Inst} (hwf : w.wf fc = true) (hfits : w.fits I.transport = true)
    (tbl : ExcTable) (t : Int) : ∀ f ∈ resultFrames (effect tbl t I (fnInstr fc w)).2, frameOk f = true := by
  have hmin := minData_le_content hwf hfits
  have := frameOk_finish (f := fnBase I.transport w fc) (by simpa using hmin) tbl
  simpa [effect_fnInstr, resultFrames] using this

/-- Whatever the addressed Inst decodes, it emits good Frames only. -/
theorem frameOk_decoded {w : Issue} {i : Instr} {I : Inst} (h : decode I.transport w = .ok i) (tbl : ExcTable) (t : Int) :
    ∀ f ∈ resultFrames (effect tbl t I i).2, frameOk f = true := by
  rcases decode_cases h with ⟨c, rfl⟩ | ⟨fc, w, hwf, hfits, rfl⟩
  · exact frameOk_command c tbl t I
  · exact frameOk_row hwf hfits tbl t

/-! ### The buffers: every instruction leaves a good Inst (rules R82, R94, R121) -/

/-- An empty buffer waits, and is within every cap. -/
theorem instOk_of_empty {I : Inst} (h : I.buf = []) : instOk I = true := by
  have hw : bufWaits I.transport [] = true := by cases I.transport <;> rfl
  simp [instOk, h, hw]

theorem instOk_create (p : Params) (t : Int) : instOk (Inst.create p t) = true := instOk_of_empty rfl

/-- The stale pass keeps a good Inst good. -/
theorem instOk_stalePass {I : Inst} (h : instOk I = true) (tbl : ExcTable) (now : Int) : instOk (stalePass tbl I now).2 = true := by
  rcases stalePass_cases tbl I now with ⟨-, hp⟩ | ⟨-, hp⟩ <;> rw [hp]
  · exact instOk_of_empty rfl
  · exact h

/-- The receive discipline leaves a good Inst, whatever it started from: extraction ends at its fixed point, and the cap check bounds it. -/
theorem instOk_recvIngest (tbl : ExcTable) (I : Inst) (xs : List Byte) (now : Int) : instOk (recvIngest tbl I xs now).1 = true := by
  unfold recvIngest
  dsimp only
  generalize appendBytes (stalePass tbl I now).2 xs now = J
  rcases capCheck_cases (extractInst tbl J now).2 with ⟨-, h⟩ | ⟨hcap, h⟩ <;> rw [h]
  · exact instOk_of_empty rfl
  · have hw : bufWaits J.transport (extract tbl J.transport J.buf now).2 = true := extract_residual_waits tbl _ _ now
    simpa [instOk, hw] using decide_eq_true hcap

/-- Every instruction keeps the addressed Inst good. -/
theorem instOk_effect {I : Inst} (h : instOk I = true) (tbl : ExcTable) (t : Int) (i : Instr) : instOk (effect tbl t I i).1 = true := by
  cases i with
  | reset => exact instOk_of_empty rfl
  | rx xs now => exact instOk_recvIngest tbl I xs now
  | flush now => exact instOk_stalePass h tbl now
  | _ => exact h

/-! ### The invariant `stateOk` -/

theorem instsOk_iff (s : State) : instsOk s = true ↔ ∀ I, some I ∈ s.insts → instOk I = true := by
  simp only [instsOk, List.all_eq_true]
  constructor
  · intro h I hI
    exact h _ hI
  · intro h slot hslot
    cases slot with
    | none => rfl
    | some I => exact h I hslot

theorem observedOk_iff (s : State) : observedOk s = true ↔ ∀ r ∈ s.results, ∀ f ∈ resultFrames r.2, frameOk f = true := by
  simp [observedOk]

theorem stateOk_iff (s : State) : stateOk s = true ↔
    (∀ I, some I ∈ s.insts → instOk I = true) ∧ ∀ r ∈ s.results, ∀ f ∈ resultFrames r.2, frameOk f = true := by
  rw [stateOk, Bool.and_eq_true, instsOk_iff, observedOk_iff]

/-- The addressed Inst stands among those of the state. -/
theorem State.mem_insts_of_live {s : State} {I : Inst} (h : s.live = some I) : some I ∈ s.insts := by
  have hlt := State.sel_lt_of_live h
  rw [State.live, List.getD_eq_getElem _ _ hlt] at h
  exact h ▸ List.getElem_mem hlt

/-- A good Inst with good Frames, committed, keeps the invariant. -/
theorem stateOk_commit {s : State} (h : stateOk s = true) {I : Inst} {r : Result} (hI : instOk I = true)
    (hr : ∀ f ∈ resultFrames r, frameOk f = true) : stateOk (s.commit I r) = true := by
  obtain ⟨hinsts, hresults⟩ := (stateOk_iff s).1 h
  rw [stateOk_iff]
  refine ⟨fun J hJ => ?_, fun q hq => ?_⟩
  · rcases List.mem_or_eq_of_mem_set hJ with hJ | hJ
    · exact hinsts J hJ
    · cases hJ; exact hI
  · rcases List.mem_append.1 hq with hq | hq
    · exact hresults q hq
    · rw [List.mem_singleton.1 hq]; exact hr

/-- The invariant reads the Insts and the results alone. -/
theorem stateOk_congr {s s' : State} (hi : s'.insts = s.insts) (hr : s'.results = s.results) : stateOk s' = stateOk s := by
  simp only [stateOk, instsOk, observedOk, hi, hr]

/-- An instruction that the addressed Inst decodes keeps the invariant. -/
theorem exec_keeps_stateOk {s s' : State} {w : Issue} {i : Instr} (h : stateOk s = true) (hf : fetchInstr s w = .ok i)
    (he : exec i s = .next s') : stateOk s' = true := by
  obtain ⟨I, hI, rfl⟩ := exec_next he
  obtain ⟨J, hJ, hd⟩ := fetchInstr_ok_iff.1 hf
  obtain rfl : I = J := by simpa [hI] using hJ
  have hok : instOk I = true := ((stateOk_iff s).1 h).1 I (State.mem_insts_of_live hI)
  have hfree : stateOk (countFree i s) = true := (stateOk_congr (by simp) (by simp)).trans h
  exact stateOk_commit hfree (instOk_effect hok _ _ i) (frameOk_decoded hd _ _)

theorem createInst_keeps_stateOk {s : State} (h : stateOk s = true) (p : Params) : stateOk (createInst p s) = true := by
  obtain ⟨hinsts, hresults⟩ := (stateOk_iff s).1 h
  refine (stateOk_iff _).2 ⟨fun I hI => ?_, hresults⟩
  rcases List.mem_append.1 hI with hI | hI
  · exact hinsts I hI
  · cases List.mem_singleton.1 hI
    exact instOk_create p _

theorem teardownInst_keeps_stateOk {s : State} (h : stateOk s = true) (k : Nat) : stateOk (teardownInst k s) = true := by
  obtain ⟨hinsts, hresults⟩ := (stateOk_iff s).1 h
  refine (stateOk_iff _).2 ⟨fun I hI => ?_, hresults⟩
  rcases List.mem_or_eq_of_mem_set hI with hI | hI
  · exact hinsts I hI
  · cases hI

/-- Settles O11: each of the four ways a step can go keeps the invariant. -/
theorem stepKeepsTheStateOk : Obligations.StepKeepsTheStateOk := by
  unfold Obligations.StepKeepsTheStateOk
  intro s s' h hstep
  have hrest : ∀ rest, stateOk { s with script := rest } = true := fun rest => h
  rcases step_next hstep with ⟨-, rfl⟩ | ⟨p, rest, -, rfl⟩ | ⟨k, rest, -, rfl⟩ | ⟨k, w, rest, i, -, hf, he⟩
  · exact h
  · exact createInst_keeps_stateOk (hrest rest) p
  · exact teardownInst_keeps_stateOk (hrest rest) k
  · exact exec_keeps_stateOk (s := addressInst k rest s) ((stateOk_congr rfl rfl).trans h) hf he

end Sys2Proof.Machine

namespace Sys2Proof.Machine

/-! ### The statements about one instruction's Frames, fields and answer -/

/-- The clauses of rule R20 that a good Frame meets, read off. -/
theorem frameOk_clauses {f : Frame} (h : frameOk f = true) :
    (f.direction = .receive → minData f.transport ≤ f.data.length) ∧
    (f.interpreted ≠ none ↔ f.isException = false ∧ f.checksumValid = true ∧ interpretable f.functionCode f.payload = true) ∧
    (f.exceptionCode ≠ none ↔ f.isException = true ∧ f.payload ≠ []) := by
  simp only [frameOk, Bool.and_eq_true, Bool.or_eq_true, decide_eq_true_eq] at h
  obtain ⟨⟨⟨⟨⟨hdata, hint⟩, hcode⟩, -⟩, -⟩, -⟩ := h
  refine ⟨fun hd => by simpa [hd] using hdata, ?_, ?_⟩
  · rw [← Option.isSome_iff_ne_none, hint]
    simp [and_assoc]
  · rw [← Option.isSome_iff_ne_none, hcode]
    simp

/-- Settles O50: what RX, TX and FLUSH answer are good Frames, and a good Frame meets the three clauses. -/
theorem emittedFramesKeepTheInvariants : Obligations.EmittedFramesKeepTheInvariants := by
  unfold Obligations.EmittedFramesKeepTheInvariants
  intro i s s' fs ovf hi hexec hres f hf
  obtain ⟨I, -, rfl⟩ := exec_next hexec
  have hr : (effect s.excTable (Config.freeTime s.fresh) I i).2 = .frames fs ovf := by simpa using hres
  have hok : frameOk f = true := frameOk_framer hi s.excTable (Config.freeTime s.fresh) I f (by rw [hr]; exact hf)
  obtain ⟨hdata, hint, hcode⟩ := frameOk_clauses hok
  refine ⟨fun hd ht => ?_, fun hd ht => ?_, by rw [hint, interpretable_iff], hcode⟩
  · simpa [ht, minData] using hdata hd
  · simpa [ht, minData] using hdata hd

/-- With an empty buffer the stale pass does nothing, whatever LAST_T is. -/
theorem stalePass_empty {I : Inst} (h : I.buf = []) (tbl : ExcTable) (now : Int) : stalePass tbl I now = ([], I) := by
  simp [stalePass, isStale, h]

/-- With an empty buffer the receive discipline does not read LAST_T (rule R26). -/
theorem recvIngest_lastT {I : Inst} (h : I.buf = []) (tbl : ExcTable) (t : Int) (xs : List Byte) (now : Int) :
    recvIngest tbl { I with lastT := t } xs now = recvIngest tbl I xs now := by
  unfold recvIngest
  rw [stalePass_empty h, stalePass_empty (I := { I with lastT := t }) h]
  rfl

/-- With an empty buffer LAST_T changes no answer, and what is left differs in LAST_T at most, and then with an empty buffer still. -/
theorem effect_lastT {I : Inst} (h : I.buf = []) (tbl : ExcTable) (free t : Int) (i : Instr) :
    ∃ u, effect tbl free { I with lastT := t } i = ({ (effect tbl free I i).1 with lastT := u }, (effect tbl free I i).2) ∧
      ((effect tbl free I i).1.lastT = u ∨ (effect tbl free I i).1.buf = []) := by
  cases i with
  | reset => exact ⟨free, rfl, .inl rfl⟩
  | rx xs now => exact ⟨(recvIngest tbl I xs now).1.lastT, by simp [effect, recvIngest_lastT h], .inl rfl⟩
  | flush now =>
    have h' := stalePass_empty (I := { I with lastT := t }) h tbl now
    exact ⟨t, by simp [effect, stalePass_empty h, h'], .inr (by simp [effect, stalePass_empty h, h])⟩
  | _ => exact ⟨t, rfl, .inr h⟩

/-- Settles O51: both runs are the effect on the addressed Inst, which does not read LAST_T while the buffer is empty. -/
theorem unspecifiedTimeIsNeverObserved : Obligations.UnspecifiedTimeIsNeverObserved := by
  unfold Obligations.UnspecifiedTimeIsNeverObserved
  intro i s₁ s₂ I t h₁ h₂ hbuf hres hsel hfresh htbl
  obtain ⟨u, heff, hu⟩ := effect_lastT hbuf s₁.excTable (Config.freeTime s₁.fresh) t i
  refine ⟨_, _, _, u, exec_live h₁ i, exec_live h₂ i, ?_, live_commit_countFree h₁ i _ _, ?_, hu⟩
  · rw [← htbl, ← hfresh, heff]
    simp [hres, hsel]
  · rw [← htbl, ← hfresh, heff]
    exact live_commit_countFree h₂ i _ _

/-- No step writes the exception-code table (rule R43). -/
theorem step_excTable {s s' : State} (h : step s = .next s') : s'.excTable = s.excTable := by
  rcases step_next h with ⟨-, rfl⟩ | ⟨p, rest, -, rfl⟩ | ⟨k, rest, -, rfl⟩ | ⟨k, w, rest, i, -, -, he⟩
  · rfl
  · rfl
  · rfl
  · obtain ⟨I, -, rfl⟩ := exec_next he
    simp

/-- Settles O55: an instruction is one commit to the addressed Inst, and no host move writes the table. -/
theorem onlyTheAddressedInstanceChanges : Obligations.OnlyTheAddressedInstanceChanges := by
  unfold Obligations.OnlyTheAddressedInstanceChanges
  refine ⟨fun i s s' h => ?_, fun s s' => step_excTable⟩
  obtain ⟨I, -, rfl⟩ := exec_next h
  refine ⟨by simp, by simp, by simp, by simp, fun k hk => ?_, ⟨_, results_commit_countFree i s _ _⟩, by simp⟩
  simp [List.getElem?_set_ne hk.symm]

/-- The constants of an Inst have no writer (rules R16 and R37). -/
theorem effect_constants (tbl : ExcTable) (t : Int) (I : Inst) (i : Instr) :
    (effect tbl t I i).1.transport = I.transport ∧ (effect tbl t I i).1.cap = I.cap ∧
      (effect tbl t I i).1.resetTimeout = I.resetTimeout := by
  cases i with
  | rx xs now =>
    obtain ⟨htr, -, -, hcap, hreset⟩ := recvIngest_fields tbl I xs now
    exact ⟨htr, hcap, hreset⟩
  | flush now => simp [effect]
  | _ => exact ⟨rfl, rfl, rfl⟩

/-- TIMEOUT is written by SET_TIMEOUT and RESET alone (rule R16). -/
theorem effect_timeout {i : Instr} (hset : ∀ v, i ≠ .setTimeout v) (hreset : i ≠ .reset) (tbl : ExcTable) (t : Int) (I : Inst) :
    (effect tbl t I i).1.timeout = I.timeout := by
  cases i with
  | reset => exact absurd rfl hreset
  | setTimeout v => exact absurd rfl (hset v)
  | rx xs now =>
    obtain ⟨-, -, htimeout, -, -⟩ := recvIngest_fields tbl I xs now
    exact htimeout
  | flush now => exact stalePass_timeout tbl I now
  | _ => rfl

/-- LAST_T is written by RX and RESET alone (rule R16). -/
theorem effect_lastT_eq {i : Instr} (hrx : ∀ xs t, i ≠ .rx xs t) (hreset : i ≠ .reset) (tbl : ExcTable) (t : Int) (I : Inst) :
    (effect tbl t I i).1.lastT = I.lastT := by
  cases i with
  | reset => exact absurd rfl hreset
  | rx xs now => exact absurd rfl (hrx xs now)
  | flush now => exact stalePass_lastT tbl I now
  | _ => rfl

/-- BUF is written by RX, FLUSH and RESET alone (rule R16). -/
theorem effect_buf {i : Instr} (hrx : ∀ xs t, i ≠ .rx xs t) (hflush : ∀ t, i ≠ .flush t) (hreset : i ≠ .reset)
    (tbl : ExcTable) (t : Int) (I : Inst) : (effect tbl t I i).1.buf = I.buf := by
  cases i with
  | reset => exact absurd rfl hreset
  | rx xs now => exact absurd rfl (hrx xs now)
  | flush now => exact absurd rfl (hflush now)
  | _ => rfl

/-- Settles O56: the Inst that an instruction leaves is its effect, and each field has its writers. -/
theorem fieldsHaveTheirWriters : Obligations.FieldsHaveTheirWriters := by
  unfold Obligations.FieldsHaveTheirWriters
  intro i s s' I hI h
  rw [exec_live hI] at h
  cases h
  obtain ⟨htr, hcap, hreset⟩ := effect_constants s.excTable (Config.freeTime s.fresh) I i
  exact ⟨_, live_commit_countFree hI i _ _, htr, hcap, hreset,
    fun hs hr => effect_timeout hs hr _ _ I, fun hx hr => effect_lastT_eq hx hr _ _ I,
    fun hx hf hr => effect_buf hx hf hr _ _ I⟩

/-- Settles O57: both runs are one effect of one Inst, one table and one free value. -/
theorem answerDependsOnTheAddressedInstanceAlone : Obligations.AnswerDependsOnTheAddressedInstanceAlone := by
  unfold Obligations.AnswerDependsOnTheAddressedInstanceAlone
  intro i s₁ s₂ s₁' hlive htbl hfresh h
  obtain ⟨I, h₁, rfl⟩ := exec_next h
  have h₂ : s₂.live = some I := hlive ▸ h₁
  refine ⟨_, exec_live h₂ i, ?_, _, results_commit_countFree i s₁ _ _, ?_⟩
  · rw [live_commit_countFree h₁, live_commit_countFree h₂, htbl, hfresh]
  · rw [results_commit_countFree, htbl, hfresh]

/-! ### Reset, one step, and the messages -/

/-- Settles O7: the decoded instruction is what the step fetches. -/
theorem stepRunsTheDecodedInstruction : Obligations.StepRunsTheDecodedInstruction := by
  unfold Obligations.StepRunsTheDecodedInstruction
  intro s I k w rest i hs hI hd _
  exact step_issue hs (fetchInstr_ok_iff.2 ⟨I, hI, hd⟩)

/-- Settles O9: reset creates the two Insts with the default parameters. -/
theorem resetStateHoldsTheCreationValues : Obligations.ResetStateHoldsTheCreationValues := by
  unfold Obligations.ResetStateHoldsTheCreationValues
  exact ⟨rfl, rfl, rfl, rfl⟩

/-- Settles O10: both Insts are just created, and nothing is observed. -/
theorem resetStateIsOk : Obligations.ResetStateIsOk := by
  unfold Obligations.ResetStateIsOk
  simp [stateOk, instsOk, observedOk, State.reset, instOk_create]

/-- Settles O29: each message by the table of rule R21. -/
theorem messageDisplayStrings : Obligations.MessageDisplayStrings := by
  unfold Obligations.MessageDisplayStrings
  exact ⟨rfl, rfl, rfl, rfl, rfl, rfl, rfl, rfl, rfl, rfl, rfl⟩

end Sys2Proof.Machine

/-! # The memory: packed bits and the order of the bytes (20_memory, rules R28, R33, R41) -/

namespace Sys2Proof.Machine

/-! ### Packed bits (rules R33 and R56) -/

@[simp] theorem byteBits_length (b : Byte) : (byteBits b).length = 8 := by
  simp [byteBits]

@[simp] theorem bitsLSB_cons (b : Byte) (bs : List Byte) : bitsLSB (b :: bs) = byteBits b ++ bitsLSB bs :=
  List.flatMap_cons

theorem bitsLSB_length (bs : List Byte) : (bitsLSB bs).length = 8 * bs.length := by
  induction bs with
  | nil => rfl
  | cons b bs ih => simp only [bitsLSB_cons, List.length_append, byteBits_length, ih, List.length_cons]; omega

/-- Bit `k` of a byte by its weight. -/
theorem byteBits_getElem? (b : Byte) {k : Nat} (hk : k < 8) : (byteBits b)[k]? = some (decide (b.toNat / 2 ^ k % 2 = 1)) := by
  simp [byteBits, hk, BitVec.getLsbD, Nat.testBit_eq_decide_div_mod_eq]

/-- The 8 bits of byte `j` start at element `8 * j`. -/
theorem bitsLSB_getElem? (bs : List Byte) {j k : Nat} (hj : j < bs.length) (hk : k < 8) :
    (bitsLSB bs)[8 * j + k]? = (byteBits bs[j])[k]? := by
  induction bs generalizing j with
  | nil => simp at hj
  | cons b bs ih =>
    rw [bitsLSB_cons]
    cases j with
    | zero =>
      rw [List.getElem?_append_left (by simpa using hk)]
      simp
    | succ j =>
      have hi : 8 * (j + 1) + k - (byteBits b).length = 8 * j + k := by rw [byteBits_length]; omega
      rw [List.getElem?_append_right (by rw [byteBits_length]; omega), hi]
      exact ih (by simpa using hj)

/-- Settles O27: byte `j` gives the 8 elements from `8 * j` on. -/
theorem packedBitsAreLsbFirst : Obligations.PackedBitsAreLsbFirst := by
  unfold Obligations.PackedBitsAreLsbFirst
  refine fun bs => ⟨bitsLSB_length bs, fun j k hj hk => ?_⟩
  rw [bitsLSB_getElem? bs hj hk, byteBits_getElem? _ hk, List.getD_eq_getElem _ _ hj]

/-! ### RTU extraction cuts the buffer (rule R76) -/

/-- The slices and the residual are the buffer. -/
theorem rtuSlices_flatten (buf : List Byte) : (rtuSlices buf).1.flatten ++ (rtuSlices buf).2 = buf := by
  induction buf using rtu_induction with
  | waits buf h => rw [rtuSlices_waits h]; rfl
  | slice buf n h hn ih =>
    rw [rtuSlices_slice h hn, List.flatten_cons, List.append_assoc, ih, List.take_append_drop]

/-- The Frames' raw bytes are the slices. -/
theorem rtuExtract_raw (tbl : ExcTable) (buf : List Byte) (now : Int) :
    (rtuExtract tbl buf now).1.map Frame.raw = (rtuSlices buf).1 := by
  simp [rtuExtract, Function.comp_def]

/-! ### ASCII extraction, case by case (rules R89 and R90) -/

theorem asciiExtract_none {buf : List Byte} (h : buf.dropWhile (· != colon) = []) (tbl : ExcTable) (now : Int) :
    asciiExtract tbl buf now = ([], []) := by
  simp [asciiExtract, asciiCandidates_none h]

theorem asciiExtract_wait {buf text : List Byte} (h : buf.dropWhile (· != colon) = colon :: text)
    (hc : splitCrlf text = none) (tbl : ExcTable) (now : Int) : asciiExtract tbl buf now = ([], colon :: text) := by
  simp [asciiExtract, asciiCandidates_wait h hc]

/-- A candidate gives its Frame, or nothing, before the Frames of the rest. -/
theorem asciiExtract_cand {buf text inner rest : List Byte} (h : buf.dropWhile (· != colon) = colon :: text)
    (hc : splitCrlf text = some (inner, rest)) (tbl : ExcTable) (now : Int) :
    asciiExtract tbl buf now =
      ((asciiCandidateRx tbl (delimit inner) now).toList ++ (asciiExtract tbl rest now).1, (asciiExtract tbl rest now).2) := by
  simp only [asciiExtract, asciiCandidates_cand h hc, List.filterMap_cons]
  cases asciiCandidateRx tbl (delimit inner) now <;> rfl

/-- The text between the delimiters. -/
@[simp] theorem slice_delimit (inner : List Byte) : slice (delimit inner) 1 ((delimit inner).length - 2) = inner := by
  simp [slice, delimit]

/-- The raw bytes of a candidate's Frame are the text between its delimiters (rule R90). -/
theorem asciiCandidateRx_delimit_raw {tbl : ExcTable} {inner : List Byte} {now : Int} {f : Frame}
    (h : asciiCandidateRx tbl (delimit inner) now = some f) : f.raw = inner := by
  simp only [asciiCandidateRx, slice_delimit] at h
  split at h
  next => cases h
  next c _ =>
    split at h
    next => cases h
    next => cases h; exact asciiFrame_raw tbl c inner .receive now

/-! ### Frames in the order of their bytes (rules R28 and R41) -/

/-- The delimited texts of `fs` stand in `buf` one after another, discarded bytes before each and after the last, and `residual` at the end. -/
def DelimitedInOrder (buf : List Byte) (fs : List Frame) (residual : List Byte) : Prop :=
  ∃ (gaps : List (List Byte)) (last : List Byte), gaps.length = fs.length ∧
    (List.zipWith (fun gap f => gap ++ 0x3A :: f.raw ++ [0x0D, 0x0A]) gaps fs).flatten ++ last ++ residual = buf

theorem delimitedInOrder_nil (residual : List Byte) : DelimitedInOrder residual [] residual :=
  ⟨[], [], rfl, rfl⟩

/-- Bytes discarded at the head widen the first gap. -/
theorem DelimitedInOrder.discard {buf residual : List Byte} {fs : List Frame} (h : DelimitedInOrder buf fs residual)
    (junk : List Byte) : DelimitedInOrder (junk ++ buf) fs residual := by
  obtain ⟨gaps, last, hlen, rfl⟩ := h
  cases fs with
  | nil => exact ⟨[], junk ++ last, rfl, by simp⟩
  | cons f fs =>
    obtain ⟨gap, gaps, rfl⟩ := List.exists_cons_of_length_eq_add_one hlen
    exact ⟨(junk ++ gap) :: gaps, last, hlen, by simp⟩

/-- A Frame whose delimited text stands at the head comes first, with an empty gap. -/
theorem DelimitedInOrder.emit {buf residual : List Byte} {fs : List Frame} (h : DelimitedInOrder buf fs residual)
    (f : Frame) : DelimitedInOrder (delimit f.raw ++ buf) (f :: fs) residual := by
  obtain ⟨gaps, last, hlen, rfl⟩ := h
  exact ⟨[] :: gaps, last, by simpa using hlen, by simp [delimit, colon, cr, lf]⟩

/-- A candidate is emitted as a Frame, or discarded with its delimiters. -/
theorem DelimitedInOrder.candidate {buf residual : List Byte} {fs : List Frame} (h : DelimitedInOrder buf fs residual)
    (tbl : ExcTable) (inner : List Byte) (now : Int) :
    DelimitedInOrder (delimit inner ++ buf) ((asciiCandidateRx tbl (delimit inner) now).toList ++ fs) residual := by
  cases hf : asciiCandidateRx tbl (delimit inner) now with
  | none => exact h.discard (delimit inner)
  | some f => exact asciiCandidateRx_delimit_raw hf ▸ h.emit f

/-- The buffer is discarded bytes, and after them what `dropWhile` leaves. -/
theorem exists_eq_discarded_append {buf after : List Byte} (h : buf.dropWhile (· != colon) = after) :
    ∃ junk, buf = junk ++ after :=
  ⟨buf.takeWhile (· != colon), by rw [← h, List.takeWhile_append_dropWhile]⟩

/-- ASCII extraction keeps the order of the bytes (rule R89). -/
theorem asciiExtract_delimitedInOrder (tbl : ExcTable) (buf : List Byte) (now : Int) :
    DelimitedInOrder buf (asciiExtract tbl buf now).1 (asciiExtract tbl buf now).2 := by
  induction buf using ascii_induction with
  | none buf h =>
    obtain ⟨junk, hbuf⟩ := exists_eq_discarded_append h
    rw [asciiExtract_none h, hbuf]
    exact (delimitedInOrder_nil []).discard junk
  | wait buf text h hc =>
    obtain ⟨junk, hbuf⟩ := exists_eq_discarded_append h
    rw [asciiExtract_wait h hc, hbuf]
    exact (delimitedInOrder_nil (colon :: text)).discard junk
  | cand buf text inner rest h hc ih =>
    obtain ⟨junk, hbuf⟩ := exists_eq_discarded_append h
    have hcand : colon :: text = delimit inner ++ rest := by simp [splitCrlf_eq hc, delimit]
    rw [asciiExtract_cand h hc, hbuf, hcand]
    exact (ih.candidate tbl inner now).discard junk

/-- Settles O44: RTU extraction cuts the buffer into slices and the residual, and each pass of the ASCII loop emits or discards at the head. -/
theorem extractionKeepsTheByteOrder : Obligations.ExtractionKeepsTheByteOrder := by
  unfold Obligations.ExtractionKeepsTheByteOrder
  refine ⟨fun tbl buf now => ?_, asciiExtract_delimitedInOrder⟩
  rw [rtuExtract_raw]
  exact rtuSlices_flatten buf

end Sys2Proof.Machine

/-! # The encoding: command words, frames, and the function-code rows (30_encoding, rules R46 to R61)

The order: what a function-code row is, and both directions of the round trip; command words; one instruction's outcome; the hex decoder; the rows as instructions; text. -/

namespace Sys2Proof.Machine

/-! ### Function-code rows: well-formedness, wire and encoding (rules R51, R53, R57) -/

/-- The code of an exception response is its original function with bit 7 set (rule R100). -/
theorem exceptionFc_toNat (original : BitVec 7) : (exceptionFc original).toNat = 0x80 + original.toNat := by
  have := original.isLt
  simp only [exceptionFc, BitVec.toNat_ofNat]
  omega

theorem classOf_exceptionFc (original : BitVec 7) : classOf (exceptionFc original) = .exceptionResponse := by
  rw [classOf_exception_iff, exceptionFc_toNat]
  omega

/-- The exception code of `original` is read as the exception row of `original`. -/
theorem fnInstr_exceptionFc (original : BitVec 7) (w : FnFrame) :
    fnInstr (exceptionFc original) w = .exceptionResponse original w := by
  simp [fnInstr, classOf_exceptionFc, exceptionFc_toNat]

/-- The row of a code is well formed, stands on a wire, and is encoded as its frame is, with that code as byte 1. -/
theorem fnInstr_wf_fits_encode (fc : Byte) (w : FnFrame) :
    (fnInstr fc w).wf = w.wf fc ∧ (∀ tr, (fnInstr fc w).fits tr = w.fits tr) ∧ encode (fnInstr fc w) = frameOf fc w := by
  cases hc : classOf fc with
  | exceptionResponse =>
    have hback := (exceptionFc_original fc ((classOf_exception_iff fc).1 hc)).1
    simp [fnInstr, hc, Instr.wf, Instr.fits, encode, hback]
  | unknownFunction => simp [fnInstr, hc, Instr.wf, Instr.fits, encode]
  | _ =>
    obtain rfl := eq_of_classCode (fc := fc) (by rw [hc]; rfl)
    exact ⟨rfl, fun _ => rfl, rfl⟩

theorem fnInstr_ne_reset (fc : Byte) (w : FnFrame) : fnInstr fc w ≠ .reset := by
  unfold fnInstr
  split <;> exact nofun

/-- Every well-formed instruction is a command, which its command word decodes to, or a function-code row. -/
theorem command_or_row {i : Instr} (h : i.wf = true) :
    (∃ c, encode i = .command c ∧ decodeCommand c = i) ∨ ∃ fc w, i = fnInstr fc w := by
  cases i with
  | illegal word =>
    have hword : legalWord word = false := by simpa [Instr.wf] using h
    exact .inl ⟨_, rfl, by simp [decodeCommand, hword]⟩
  | exceptionResponse original w => exact .inr ⟨_, w, (fnInstr_exceptionFc original w).symm⟩
  | readCoils w => exact .inr ⟨0x01, w, rfl⟩
  | readDiscreteInputs w => exact .inr ⟨0x02, w, rfl⟩
  | readHoldingRegisters w => exact .inr ⟨0x03, w, rfl⟩
  | readInputRegisters w => exact .inr ⟨0x04, w, rfl⟩
  | writeSingleCoil w => exact .inr ⟨0x05, w, rfl⟩
  | writeSingleRegister w => exact .inr ⟨0x06, w, rfl⟩
  | diagnostics w => exact .inr ⟨0x08, w, rfl⟩
  | writeMultipleCoils w => exact .inr ⟨0x0F, w, rfl⟩
  | writeMultipleRegisters w => exact .inr ⟨0x10, w, rfl⟩
  | unknownFunction fc w =>
    obtain ⟨hc, -⟩ : classOf fc = .unknownFunction ∧ w.wf fc = true := by simpa [Instr.wf] using h
    exact .inr ⟨fc, w, by simp [fnInstr, hc]⟩
  | _ => exact .inl ⟨_, rfl, by simp [decodeCommand, legalWord, rsvField, opField, dField]⟩

/-! ### The round trip (rules R47, R51, R53, R57, R60) -/

/-- A well-formed frame, put on its wire, decodes to the row of its code. -/
theorem decode_frameOf {tr : Transport} {w : FnFrame} {fc : Byte} (hwf : w.wf fc = true) (hfits : w.fits tr = true) :
    decode tr (frameOf fc w) = .ok (fnInstr fc w) := by
  obtain ⟨wire, dir, addr, body, now⟩ := w
  cases tr <;> cases wire <;> simp only [FnFrame.fits, Bool.false_eq_true] at hfits
  case rtu.rtu => simp [decode, frameOf, decodeFrame, decodeContent, FnFrame.content, hwf]
  case ascii.ascii raw =>
    have hhex := FnFrame.wf_ascii hwf
    simp [decode, frameOf, decodeFrame, decodeContent, hhex, hwf]

/-- Settles O3: a command by its word, a row by its frame on its wire. -/
theorem decodeOfEncodeIsTheInstruction : Obligations.DecodeOfEncodeIsTheInstruction := by
  unfold Obligations.DecodeOfEncodeIsTheInstruction
  intro tr i hwf hfits
  rcases command_or_row hwf with ⟨c, henc, hdec⟩ | ⟨fc, w, rfl⟩
  · rw [henc, decode, hdec]
  · obtain ⟨hwf', hfits', henc⟩ := fnInstr_wf_fits_encode fc w
    rw [henc]
    exact decode_frameOf (hwf' ▸ hwf) (hfits' tr ▸ hfits)

/-- A delimited text is its stripped text between the delimiters (rules R92 and R93). -/
theorem delimit_strip {xs : List Byte} (h : delimited xs = true) : delimit (strip xs) = xs := by
  obtain ⟨⟨hlen, hhead⟩, hend⟩ : (3 ≤ xs.length ∧ xs.head? = some colon) ∧ endsCrlf xs = true := by
    simpa [delimited] using h
  obtain ⟨text, rfl⟩ := List.head?_eq_some_iff.1 hhead
  have hlen' : 2 ≤ text.length := by simpa using hlen
  have htail : text.drop (text.length - 2) = [cr, lf] := by
    have hdrop : text.length - 1 = text.length - 2 + 1 := by omega
    simpa [endsCrlf, hdrop] using hend
  have hstrip : strip (colon :: text) = text.take (text.length - 2) := by
    simp [strip, stripStart, stripEnd, endsCrlf, htail]
  rw [hstrip, delimit, ← htail, List.cons_append, List.take_append_drop]

/-- A frame that decodes on a wire of transport `tr` is the encoding of a row on a well-formed frame that stands on that wire. -/
theorem decodeFrame_ok_frameOf {tr : Transport} {f : FrameWord} {i : Instr} (h : decodeFrame tr f = .ok i) :
    ∃ fc w, w.wf fc = true ∧ w.fits tr = true ∧ i = fnInstr fc w ∧ frameOf fc w = .frame f := by
  obtain ⟨dir, bytes, now⟩ := f
  cases tr with
  | rtu =>
    obtain ⟨addr, fc, body, rfl, hwf, rfl⟩ := decodeContent_ok h
    exact ⟨fc, _, hwf, rfl, rfl, rfl⟩
  | ascii =>
    simp only [decodeFrame] at h
    split at h
    next hdel =>
      split at h
      next =>
        obtain ⟨addr, fc, body, -, hwf, rfl⟩ := decodeContent_ok h
        exact ⟨fc, _, hwf, rfl, rfl, by simp [frameOf, delimit_strip hdel]⟩
      next => cases h
    next => cases h

/-- Settles O4: the decoded row has the well-formedness, the wire and the encoding of its frame. -/
theorem decodedFrameEncodesBack : Obligations.DecodedFrameEncodesBack := by
  unfold Obligations.DecodedFrameEncodesBack
  intro tr f i h
  obtain ⟨fc, w, hwf, hfits, rfl, hframe⟩ := decodeFrame_ok_frameOf h
  obtain ⟨hwf', hfits', henc⟩ := fnInstr_wf_fits_encode fc w
  exact ⟨hwf' ▸ hwf, hfits' tr ▸ hfits, henc ▸ hframe⟩

/-! ### Command words (rules R46, R47, R49) -/

theorem rsvField_eq (w : Byte) : rsvField w = (w.extractLsb' 1 3).toNat := by
  simp [rsvField, Nat.shiftRight_eq_div_pow]

theorem opField_eq (w : Byte) : opField w = (w.extractLsb' 4 4).toNat := by
  have := w.isLt
  simp only [opField, BitVec.extractLsb'_toNat, Nat.shiftRight_eq_div_pow]
  omega

theorem dField_eq (w : Byte) : dField w = (w.extractLsb' 0 1).toNat := by
  simp [dField]

/-- The legality test by the bits of the word (rule R49). -/
theorem legalWord_iff (w : Byte) : legalWord w = true ↔
    w.extractLsb' 1 3 = 0 ∧ (w.extractLsb' 4 4).toNat ≤ 9 ∧ (w.extractLsb' 0 1 = 0 ∨ (w.extractLsb' 4 4).toNat = 2) := by
  simp [legalWord, rsvField_eq, opField_eq, dField_eq, BitVec.toNat_eq, and_assoc]

/-- A legal word decodes to one of the eleven operations, none of which is ILLEGAL. -/
theorem decodeCommand_ne_illegal {c : Command} (h : legalWord c.word = true) (word : Byte) :
    decodeCommand c ≠ .illegal word := by
  have hop : opField c.word ≤ 9 := by rw [opField_eq]; exact ((legalWord_iff c.word).1 h).2.1
  rw [decodeCommand, if_pos h]
  split
  case h_3 => split <;> exact nofun
  case h_11 => grind -- no OP above 9 is legal (`hop`)
  all_goals exact nofun

/-- Settles O2: a word is read as ILLEGAL exactly when it is not legal. -/
theorem illegalExactlyWhenNotAdmitted : Obligations.IllegalExactlyWhenNotAdmitted := by
  unfold Obligations.IllegalExactlyWhenNotAdmitted
  intro c
  rw [← legalWord_iff]
  constructor
  · intro hill hlegal
    exact decodeCommand_ne_illegal hlegal c.word hill
  · intro hlegal
    rw [decodeCommand, if_neg hlegal]

/-- Settles O1: each word is legal, and its OP and D name the operation. -/
theorem commandBytesDecodeToTheirOperations : Obligations.CommandBytesDecodeToTheirOperations := by
  unfold Obligations.CommandBytesDecodeToTheirOperations
  intro data now value fc
  simp [decodeCommand, legalWord, rsvField, opField, dField]

/-! ### Frames and function codes, written out (rules R51 to R53, R57) -/

/-- Settles O5: the twelve frames, decoded. -/
theorem frameWordsDecodeToTheirRows : Obligations.FrameWordsDecodeToTheirRows := by
  unfold Obligations.FrameWordsDecodeToTheirRows
  exact ⟨rfl, rfl, rfl, rfl, rfl, rfl, rfl, rfl, rfl, rfl, rfl, rfl⟩

/-- A code below 0x80 that is none of the nine recognized ones is unknown. -/
theorem classOf_unknown {fc : Byte} (hlow : fc.toNat < 0x80)
    (hnine : fc.toNat ∉ [0x01, 0x02, 0x03, 0x04, 0x05, 0x06, 0x08, 0x0F, 0x10]) : classOf fc = .unknownFunction := by
  cases hc : classOf fc with
  | exceptionResponse => exact absurd ((classOf_exception_iff fc).1 hc) (by omega)
  | unknownFunction => rfl
  | _ =>
    obtain rfl := eq_of_classCode (fc := fc) (by rw [hc]; rfl)
    exact absurd (by decide) hnine

/-- Settles O6: the exception class is the upper half of the codes, and a recognized class has one code. -/
theorem functionCodesFallIntoTheirClass : Obligations.FunctionCodesFallIntoTheirClass := by
  unfold Obligations.FunctionCodesFallIntoTheirClass
  exact ⟨fun fc => (classOf_exception_iff fc).2, rfl, rfl, rfl, rfl, rfl, rfl, rfl, rfl, rfl, fun _ => classOf_unknown⟩

/-! ### One instruction's outcome (rule R12) -/

/-- An instruction other than RESET, on the addressed Inst, leaves what its effect says and nothing else. -/
theorem exec_afterOp {s : State} {I J : Inst} {i : Instr} {r : Result} (hI : Addressed s I) (hi : i ≠ .reset)
    (heff : effect s.excTable (Config.freeTime s.fresh) I i = (J, r)) : exec i s = .next (afterOp s J r) := by
  rw [exec_live hI, heff, countFree, if_neg hi]
  rfl

/-! ### The hex decoder (rules R54 and R87) -/

/-- `hexval` by the ranges of the alphabet. -/
theorem hexVal_eq (ch : Byte) : hexVal ch =
    (if ch.toNat ∈ List.range' 0x30 10 then some (ch.toNat - 0x30)
      else if ch.toNat ∈ List.range' 0x41 6 then some (ch.toNat - 0x41 + 10)
      else if ch.toNat ∈ List.range' 0x61 6 then some (ch.toNat - 0x61 + 10)
      else none) := by
  simp only [hexVal, List.mem_range'_1, Nat.lt_succ_iff]

/-- The padding of an odd text goes in front (rule R87). -/
theorem hexDecode_odd {cs : List Byte} (h : cs.length % 2 = 1) : hexDecode cs = hexDecode (zeroChar :: cs) := by
  have heven : (zeroChar :: cs).length % 2 ≠ 1 := by rw [List.length_cons]; omega
  rw [hexDecode, if_pos h, hexDecode, if_neg heven]

/-- One character outside the alphabet rejects the pairs. -/
theorem hexPairs_foreign : ∀ {cs : List Byte}, (∃ ch ∈ cs, hexVal ch = none) → hexPairs cs = none
  | [], h => by simp at h
  | [_], _ => rfl
  | hi :: lo :: rest, h => by
    obtain ⟨ch, hmem, hnone⟩ := h
    rcases List.mem_cons.1 hmem with rfl | hmem
    · simp [hexPairs, hnone]
    rcases List.mem_cons.1 hmem with rfl | hmem
    · simp [hexPairs, hnone]
    · simp [hexPairs, hexPairs_foreign ⟨ch, hmem, hnone⟩]

/-- One character outside the alphabet rejects the text, padded or not. -/
theorem hexDecode_foreign {cs : List Byte} (h : ∃ ch ∈ cs, hexVal ch = none) : hexDecode cs = none := by
  obtain ⟨ch, hmem, hnone⟩ := h
  unfold hexDecode
  split
  · exact hexPairs_foreign ⟨ch, List.mem_cons_of_mem _ hmem, hnone⟩
  · exact hexPairs_foreign ⟨ch, hmem, hnone⟩

/-- Byte `i` of an even text: characters `2i` and `2i + 1`, high nibble first. -/
def hexByteAt (cs : List Byte) (i : Nat) : Byte :=
  BitVec.ofNat 8 ((hexVal (cs.getD (2 * i) 0)).getD 0 * 16 + (hexVal (cs.getD (2 * i + 1) 0)).getD 0)

/-- The pairs of an even text over the alphabet, by index. -/
theorem hexPairs_eq_map : ∀ {cs : List Byte}, cs.length % 2 = 0 → (∀ ch ∈ cs, hexVal ch ≠ none) →
    hexPairs cs = some ((List.range (cs.length / 2)).map (hexByteAt cs))
  | [], _, _ => rfl
  | [_], h, _ => by simp at h
  | hi :: lo :: rest, hlen, hval => by
    obtain ⟨a, ha⟩ := Option.ne_none_iff_exists'.1 (hval hi (by simp))
    obtain ⟨b, hb⟩ := Option.ne_none_iff_exists'.1 (hval lo (by simp))
    have heven : rest.length % 2 = 0 := by rw [List.length_cons, List.length_cons] at hlen; omega
    have hrest := hexPairs_eq_map heven fun ch hch => hval ch (by simp [hch])
    have hhalf : (hi :: lo :: rest).length / 2 = rest.length / 2 + 1 := by simp only [List.length_cons]; omega
    have hshift : hexByteAt (hi :: lo :: rest) ∘ Nat.succ = hexByteAt rest := rfl
    have hfirst : hexByteAt (hi :: lo :: rest) 0 = BitVec.ofNat 8 (a * 16 + b) := by simp [hexByteAt, ha, hb]
    rw [hhalf, List.range_succ_eq_map, List.map_cons, List.map_map, hshift, hfirst]
    simp [hexPairs, ha, hb, hrest]

/-- An even text over the alphabet decodes by index. -/
theorem hexDecode_even {cs : List Byte} (hlen : cs.length % 2 = 0) (hval : ∀ ch ∈ cs, hexVal ch ≠ none) :
    hexDecode cs = some ((List.range (cs.length / 2)).map (hexByteAt cs)) := by
  rw [hexDecode, if_neg (by omega)]
  exact hexPairs_eq_map hlen hval

/-- Settles O21: the alphabet by its ranges, the text by its pairs. -/
theorem hexDecodePairsHighNibbleFirst : Obligations.HexDecodePairsHighNibbleFirst := by
  unfold Obligations.HexDecodePairsHighNibbleFirst
  exact ⟨hexVal_eq, fun s I cs hI => exec_afterOp hI nofun rfl, fun _ => hexDecode_odd, fun _ => hexDecode_foreign,
    fun _ => hexDecode_even⟩

/-! ### The rows' decodes by payload index (rules R103 to R111) -/

/-- Packed bits by index (rule R56). -/
theorem bitsLSB_eq_bitsAt (bs : List Byte) : bitsLSB bs = bitsAt bs := by
  refine List.ext_getElem? fun n => ?_
  by_cases hn : n < 8 * bs.length
  · have hj : n / 8 < bs.length := by omega
    have hk : n % 8 < 8 := Nat.mod_lt n (by omega)
    have hbit := (bitsLSB_getElem? bs hj hk).trans (byteBits_getElem? bs[n / 8] hk)
    rw [Nat.div_add_mod] at hbit
    simp [hbit, bitsAt, hn, hj]
  · rw [List.getElem?_eq_none (by rw [bitsLSB_length]; omega), List.getElem?_eq_none (by simp [bitsAt]; omega)]

/-- Registers by index, an odd final byte ignored (rules R105 and R110). -/
theorem regsBE_eq_regsAt : ∀ bs : List Byte, regsBE bs = regsAt bs
  | [] => rfl
  | [_] => by simp [regsBE, regsAt]
  | hi :: lo :: rest => by
    have hhalf : (hi :: lo :: rest).length / 2 = rest.length / 2 + 1 := by simp only [List.length_cons]; omega
    have hshift : (fun i => field16 (hi :: lo :: rest) (2 * i)) ∘ Nat.succ = fun i => field16 rest (2 * i) := rfl
    rw [regsAt, hhalf, List.range_succ_eq_map, List.map_cons, List.map_map, hshift, regsBE, regsBE_eq_regsAt rest]
    rfl

/-- What follows a byte count is not three bytes long, where the payload is none of the request form (rule R97). -/
theorem length_ne_three {rest : List Byte} (h : ∀ b c d, rest ≠ [b, c, d]) : rest.length ≠ 3 := by
  intro hlen
  obtain ⟨b, c, d, rfl⟩ := List.length_eq_three.1 hlen
  exact h b c d rfl

/-- A payload too short for the fields of a write has fewer than four bytes (rule R98). -/
theorem length_lt_four {p : List Byte} (h : ∀ a b c d rest, p ≠ a :: b :: c :: d :: rest) : p.length < 4 := by
  match p with
  | [] | [_] | [_, _] | [_, _, _] => simp
  | a :: b :: c :: d :: rest => exact absurd rfl (h a b c d rest)

theorem interpBits_eq (p : List Byte) : interpBits p = bitReadOf p := by
  unfold interpBits
  split
  next => rfl
  next => rfl
  next bc rest hne => simp [bitReadOf, length_ne_three hne, countedData, bitsLSB_eq_bitsAt]

theorem interpRegs_eq (p : List Byte) : interpRegs p = registerReadOf p := by
  unfold interpRegs
  split
  next => rfl
  next => rfl
  next bc rest hne => simp [registerReadOf, length_ne_three hne, countedData, regsBE_eq_regsAt]

theorem interp05_eq (p : List Byte) : interp05 p = coilWriteOf p := by
  unfold interp05
  split
  next => exact (if_neg (by simp)).symm
  next hne => simp [coilWriteOf, length_lt_four hne]

theorem interp06_eq (p : List Byte) : interp06 p = registerWriteOf p := by
  unfold interp06
  split
  next => simp [registerWriteOf, field16, be16]
  next hne => simp [registerWriteOf, length_lt_four hne]

theorem interp08_eq (p : List Byte) : interp08 p = diagnosticsOf p := by
  unfold interp08
  split
  next => simp [diagnosticsOf, field16, be16]
  next hne => simp [diagnosticsOf, length_lt_four hne]

/-- A write-multiple payload by index, its values read from the counted bytes after byte 4. -/
theorem interpMulti_eq (unpack : List Byte → MultiValues) (p : List Byte) :
    interpMulti unpack p = multiWriteOf p (unpack (countedData p 4)) := by
  unfold interpMulti
  split
  next => simp [multiWriteOf, field16, be16, countedData]
  next => rfl
  next hne hne' =>
    have hshort : p.length < 4 := length_lt_four fun a b c d rest hp => by
      cases rest with
      | nil => exact hne' a b c d hp
      | cons e rest => exact hne a b c d e rest hp
    simp [multiWriteOf, hshort]

theorem interp0F_eq (p : List Byte) : interp0F p = multiWriteOf p (.bits (bitsAt (countedData p 4))) := by
  rw [interp0F, interpMulti_eq, bitsLSB_eq_bitsAt]

theorem interp10_eq (p : List Byte) : interp10 p = multiWriteOf p (.regs (regsAt (countedData p 4))) := by
  rw [interp10, interpMulti_eq, regsBE_eq_regsAt]

/-! ### The function-code rows as instructions (rules R19, R57, R99 to R114) -/

/-- Settles O52: a row's effect is its framer's finished Frame, case by case of the transport and the direction. -/
theorem functionRowsEmitTheFinishedFrame : Obligations.FunctionRowsEmitTheFinishedFrame := by
  unfold Obligations.FunctionRowsEmitTheFinishedFrame
  intro s I fc w hI
  rw [exec_afterOp hI (fnInstr_ne_reset fc w) (effect_fnInstr _ _ I fc w)]
  obtain ⟨wire, dir, addr, body, now⟩ := w
  cases I.transport <;> cases dir <;> rfl

/-- A row that is no exception response emits a Frame of its framer's fields, with the row's own decode when the checksum is valid. -/
theorem exec_fnFrame {s : State} {I : Inst} {i : Instr} {w : FnFrame} {fc : Byte}
    {decodePayload decodeOf : List Byte → Option InterpretedPayload} (hI : Addressed s I)
    (hdecode : ∀ p, decodePayload p = decodeOf p) (hi : i ≠ .reset := by nofun)
    (heff : effect s.excTable (Config.freeTime s.fresh) I i =
      (I, .frames [fnFrame I.transport w fc decodePayload] false) := by rfl) :
    ∃ f : Frame, exec i s = .next (afterOp s I (.frames [f] false)) ∧ f.transport = I.transport ∧
      f.functionCode = some fc ∧ f.data = w.content fc ∧ f.isException = false ∧
      f.interpreted = (if f.checksumValid then decodeOf f.payload else none) := by
  obtain rfl : decodePayload = decodeOf := funext hdecode
  exact ⟨_, exec_afterOp hI hi heff, fnBase_transport _ w fc, fnBase_functionCode _ w fc, fnBase_data _ w fc, rfl, rfl⟩

/-- Settles O53: each row's decode is the one by payload index. -/
theorem functionRowsDecodeTheirPayload : Obligations.FunctionRowsDecodeTheirPayload := by
  unfold Obligations.FunctionRowsDecodeTheirPayload
  intro s I w hI
  exact ⟨exec_fnFrame hI interpBits_eq, exec_fnFrame hI interpBits_eq,
    exec_fnFrame hI interpRegs_eq, exec_fnFrame hI interpRegs_eq,
    exec_fnFrame hI interp05_eq, exec_fnFrame hI interp06_eq, exec_fnFrame hI interp08_eq,
    exec_fnFrame hI interp0F_eq, exec_fnFrame hI interp10_eq⟩

/-- Settles O54: both Frames are built from the framer's fields, the one with the exception fields, the other without. -/
theorem exceptionAndUnknownRows : Obligations.ExceptionAndUnknownRows := by
  unfold Obligations.ExceptionAndUnknownRows
  intro s I w hI
  refine ⟨fun original => ?_, fun fc => ?_⟩
  · exact ⟨fnException s.excTable I.transport w original, exec_afterOp hI nofun rfl, fnBase_transport _ w _,
      fnBase_functionCode _ w _, rfl, rfl, rfl, rfl, rfl⟩
  · exact ⟨fnFrame I.transport w fc fun _ => none, exec_afterOp hI nofun rfl, fnBase_transport _ w fc,
      fnBase_functionCode _ w fc, fnBase_data _ w fc, rfl, rfl, ite_self none⟩

/-! ### Text (rule R61) -/

/-- Settles O60: the twelve lines, assembled. -/
theorem textLinesStandForTheirCommands : Obligations.TextLinesStandForTheirCommands := by
  unfold Obligations.TextLinesStandForTheirCommands
  decide +kernel

end Sys2Proof.Machine

/-! # The Checksum Engine: the CRC of RTU frames and the LRC of ASCII frames (40_checksum, rules R63 to R68)

The order: the passes of CRC_STEP, which can be undone; CRC_STEP on one byte and on two; the CRC of a sequence, its residue and RTU validity; the LRC, its sum and ASCII validity. -/

namespace Sys2Proof.Machine

/-! ### The passes of CRC_STEP (rule R63) -/

/-- The low bit that a pass tests is the parity of the accumulator. -/
theorem crcBit_eq_parity (a : U16) : crcBit a = if a.toNat % 2 = 1 then (a >>> 1) ^^^ 0xA001 else a >>> 1 := by
  have hlow : a.getLsbD 0 = decide (a.toNat % 2 = 1) := by simp [BitVec.getLsbD]
  simp only [crcBit, hlow, decide_eq_true_eq]

theorem crcBits_eq_iterate (n : Nat) (a : U16) : crcBits n a = crcBit^[n] a := by
  induction n generalizing a with
  | zero => rfl
  | succ n ih => exact ih (crcBit a)

/-- A pass keeps the bit it tests, as its top bit: the top bit of 0xA001 is set, that of a shifted value is not. -/
theorem getLsbD_crcBit_top (a : U16) : (crcBit a).getLsbD 15 = a.getLsbD 0 := by
  unfold crcBit
  split
  next h => simp [h]
  next h => simpa using h

/-- A pass can be undone: the top bit says whether 0xA001 was XORed in, and the shift drops only the bit tested. -/
theorem crcBit_injective : Function.Injective crcBit := by
  intro a b hab
  have hlow : a.getLsbD 0 = b.getLsbD 0 := by
    rw [← getLsbD_crcBit_top a, ← getLsbD_crcBit_top b, hab]
  have hshift : a >>> 1 = b >>> 1 := by
    unfold crcBit at hab
    rw [hlow] at hab
    split at hab
    · exact (BitVec.xor_left_inj _).mp hab
    · exact hab
  refine BitVec.eq_of_getLsbD_eq fun i _ => ?_
  cases i with
  | zero => exact hlow
  | succ i => simpa [Nat.add_comm] using congrArg (·.getLsbD i) hshift

/-- `n` passes over `n` clear low bits are a shift. -/
theorem crcBits_of_low_clear {n : Nat} {a : U16} (h : ∀ i < n, a.getLsbD i = false) : crcBits n a = a >>> n := by
  induction n generalizing a with
  | zero => rfl
  | succ n ih =>
    have hpass : crcBit a = a >>> 1 := if_neg (by rw [h 0 (by omega)]; decide)
    have hclear : ∀ i < n, (a >>> 1).getLsbD i = false := fun i hi => by
      simpa using h (1 + i) (by omega)
    rw [crcBits, hpass, ih hclear, ← BitVec.shiftRight_add, Nat.add_comm]

/-! ### CRC_STEP on one byte and on two (rules R31, R63) -/

theorem crcStep_left_injective (b : Byte) : Function.Injective fun a => crcStep a b := by
  intro a a' h
  simp only [crcStep, crcBits_eq_iterate] at h
  exact (BitVec.xor_left_inj _).mp (crcBit_injective.iterate 8 h)

theorem crcStep_eq_zero_iff (a : U16) (b : Byte) : crcStep a b = 0 ↔ a = b.setWidth 16 := by
  have hzero : crcStep (b.setWidth 16) b = 0 := by simp [crcStep, crcBits_of_low_clear]
  rw [← hzero]
  exact (crcStep_left_injective b).eq_iff

/-- The low byte is the less significant half. -/
theorem le16_eq_append (lo hi : Byte) : le16 lo hi = hi ++ lo := by
  have hlo : lo.toNat < 2 ^ 8 := lo.isLt
  apply BitVec.eq_of_toNat_eq
  rw [BitVec.toNat_append, ← Nat.shiftLeft_add_eq_or_of_lt hlo, Nat.shiftLeft_eq, le16, BitVec.toNat_ofNat]
  omega

theorem getLsbD_le16 (lo hi : Byte) (i : Nat) :
    (le16 lo hi).getLsbD i = if i < 8 then lo.getLsbD i else hi.getLsbD (i - 8) := by
  rw [le16_eq_append]
  exact BitVec.getLsbD_append

/-- The low byte cancels itself, and 8 passes bring the high byte down. -/
theorem crcStep_le16 (lo hi : Byte) : crcStep (le16 lo hi) lo = hi.setWidth 16 := by
  have hclear : ∀ i < 8, (le16 lo hi ^^^ lo.setWidth 16).getLsbD i = false := fun i hi8 => by
    have hi16 : i < 16 := by omega
    simp only [BitVec.getLsbD_xor, getLsbD_le16, BitVec.getLsbD_setWidth, hi8, hi16, if_true, decide_true,
      Bool.true_and, Bool.xor_self]
  rw [crcStep, crcBits_of_low_clear hclear]
  refine BitVec.eq_of_getLsbD_eq fun i hi16 => ?_
  simp [getLsbD_le16, hi16]

/-- Two more bytes take the accumulator to 0 exactly when they are its own, low byte first. -/
theorem crcStep_crcStep_eq_zero_iff (a : U16) (lo hi : Byte) : crcStep (crcStep a lo) hi = 0 ↔ le16 lo hi = a := by
  rw [crcStep_eq_zero_iff, ← crcStep_le16 lo hi, eq_comm]
  exact (crcStep_left_injective lo).eq_iff

/-- The two trailing bytes of rule R66 stand for the value they are cut from. -/
theorem le16_of_bytes (v : U16) : le16 (v.setWidth 8) ((v >>> 8).setWidth 8) = v := by
  apply BitVec.eq_of_toNat_eq
  rw [le16, BitVec.toNat_ofNat, BitVec.toNat_setWidth, BitVec.toNat_setWidth, BitVec.toNat_ushiftRight, Nat.shiftRight_eq_div_pow]
  omega

/-! ### The CRC of a sequence (rules R64, R67, R77) -/

/-- Settles O17: the passes of `crcStep` are the iterated ones. -/
theorem crc16FoldsTheBytes : Obligations.Crc16FoldsTheBytes := by
  unfold Obligations.Crc16FoldsTheBytes
  intro s I data hI
  simp only [← crcBit_eq_parity, ← crcBits_eq_iterate]
  exact exec_afterOp hI nofun rfl

theorem crc16_append_pair (xs : List Byte) (lo hi : Byte) : crc16 (xs ++ [lo, hi]) = 0 ↔ le16 lo hi = crc16 xs := by
  rw [crc16, List.foldl_append]
  exact crcStep_crcStep_eq_zero_iff _ lo hi

@[simp] theorem sumsAgree_some_iff (received computed : Checksum) :
    sumsAgree (some received) (some computed) = true ↔ received = computed := by
  simp [sumsAgree]

/-- A receive frame is valid exactly when its trailing bytes are the CRC of the bytes before them. -/
theorem rtuFrameRx_checksumValid_append {content : List Byte} (h : 2 ≤ content.length) (lo hi : Byte) (tbl : ExcTable) (now : Int) :
    (rtuFrameRx tbl (content ++ [lo, hi]) now).checksumValid = true ↔ le16 lo hi = crc16 content := by
  have hreceived : rtuReceived (content ++ [lo, hi]) = some (.crc (le16 lo hi)) := by
    simp [rtuReceived, h]
  have hcomputed : rtuComputed (content ++ [lo, hi]) = some (.crc (crc16 content)) := by
    simp [rtuComputed, slice, h]
  simp [rtuFrameRx, rtuFieldsRx, rtuFields, hreceived, hcomputed]

theorem exists_append_pair {d : List Byte} (h : 2 ≤ d.length) : ∃ content lo hi, d = content ++ [lo, hi] := by
  have hlen : (d.drop (d.length - 2)).length = 2 := by rw [List.length_drop]; omega
  obtain ⟨lo, hi, hlast⟩ := List.length_eq_two.mp hlen
  exact ⟨d.take (d.length - 2), lo, hi, by rw [← hlast, List.take_append_drop]⟩

/-- Settles O19: the CRC over everything is 0 exactly when the trailing two bytes are the CRC of the rest. -/
theorem rtuFrameValidIffWholeCrcIsZero : Obligations.RtuFrameValidIffWholeCrcIsZero := by
  unfold Obligations.RtuFrameValidIffWholeCrcIsZero
  refine ⟨fun xs => (crc16_append_pair xs _ _).mpr (le16_of_bytes _), fun tbl d now hd => ?_⟩
  obtain ⟨content, lo, hi, rfl⟩ := exists_append_pair (d := d) (by omega)
  have hcontent : 2 ≤ content.length := by simpa using hd
  rw [rtuFrameRx_checksumValid_append hcontent, crc16_append_pair]

/-! ### The LRC (rules R65, R68, R95) -/

theorem byteSum_append_singleton (xs : List Byte) (b : Byte) : byteSum (xs ++ [b]) = byteSum xs + b.toNat := by
  simp [byteSum]

/-- The 8-bit sum of the bytes is their sum as a number, reduced. -/
theorem foldl_add_eq_byteSum (xs : List Byte) : xs.foldl (· + ·) (0 : Byte) = BitVec.ofNat 8 (byteSum xs) := by
  induction xs using List.reverseRecOn with
  | nil => rfl
  | append_singleton xs b ih =>
    rw [List.foldl_append, ih, byteSum_append_singleton, BitVec.ofNat_add, BitVec.ofNat_toNat, BitVec.setWidth_eq]
    rfl

theorem lrc_eq_neg (xs : List Byte) : lrc xs = -BitVec.ofNat 8 (byteSum xs) := by
  apply BitVec.eq_of_toNat_eq
  simp [lrc, BitVec.toNat_neg]

/-- Settles O18: the LRC is the negated 8-bit sum. -/
theorem lrcIsTheTwosComplementOfTheSum : Obligations.LrcIsTheTwosComplementOfTheSum := by
  unfold Obligations.LrcIsTheTwosComplementOfTheSum
  intro s I data hI
  rw [foldl_add_eq_byteSum, ← lrc_eq_neg]
  exact exec_afterOp hI nofun rfl

/-- A byte is the LRC of a sequence exactly when it completes the sum to 0 modulo 256. -/
theorem eq_lrc_iff (b : Byte) (xs : List Byte) : b = lrc xs ↔ (byteSum xs + b.toNat) % 256 = 0 := by
  rw [← BitVec.toNat_inj, lrc, BitVec.toNat_ofNat]
  omega

/-- A received ASCII frame is valid exactly when its last byte is the LRC of the bytes before it. -/
theorem asciiFrame_checksumValid_append {content : List Byte} (h : 2 ≤ content.length) (b : Byte) (tbl : ExcTable)
    (raw : List Byte) (now : Int) :
    (asciiFrame tbl (content ++ [b]) raw .receive now).checksumValid = true ↔ b = lrc content := by
  have hreceived : asciiReceived (content ++ [b]) = some (.lrc b) := by simp [asciiReceived, h]
  have hcomputed : asciiComputed (content ++ [b]) = some (.lrc (lrc content)) := by simp [asciiComputed, slice, h]
  simp [asciiFrame, asciiFields, asciiValid, hreceived, hcomputed]

/-- Settles O20: the last byte is the LRC of the rest exactly when all bytes sum to 0 modulo 256. -/
theorem asciiFrameValidIffWholeSumIsZero : Obligations.AsciiFrameValidIffWholeSumIsZero := by
  unfold Obligations.AsciiFrameValidIffWholeSumIsZero
  refine ⟨fun xs => (eq_lrc_iff (lrc xs) xs).mp rfl, fun tbl c raw now hc => ?_⟩
  obtain rfl | ⟨content, b, rfl⟩ := List.eq_nil_or_concat' c
  · simp at hc
  · have hcontent : 2 ≤ content.length := by simpa using hc
    rw [asciiFrame_checksumValid_append hcontent, eq_lrc_iff, ← byteSum_append_singleton, byteSum]

end Sys2Proof.Machine

/-! # The RTU framer: lengths, Frames, extraction and reception (41_rtu_framer, rules R69 to R85)

The order: the length estimator; the fields of RTU Frames; extraction of a buffer, then of a buffer with more bytes after it, on either transport; the receive discipline on one operand; a stream in fragments; the round trip. -/

namespace Sys2Proof.Machine

/-! ### The length estimator (rules R69 to R75) -/

/-- `rtu_len` by the code as a number, the rows that answer 8 taken together. -/
theorem rtuLen_eq (buf : List Byte) : rtuLen buf =
    if buf.length < 4 then .undetermined
    else if 0x80 ≤ (buf.getD 1 0).toNat then .known 5
    else if (buf.getD 1 0).toNat ∈ [0x01, 0x02, 0x03, 0x04] then .known (5 + (buf.getD 2 0).toNat)
    else if (buf.getD 1 0).toNat ∈ [0x0F, 0x10] then
      if buf.length < 8 then .undetermined else .known (9 + (buf.getD 6 0).toNat)
    else .known 8 := by
  simp only [rtuLen, ← BitVec.toNat_inj, List.mem_cons, List.not_mem_nil, or_false, BitVec.reduceToNat, ite_self]
  grind

/-- Settles O30: each clause is one row of the estimator. -/
theorem rtuLengthRows : Obligations.RtuLengthRows := by
  unfold Obligations.RtuLengthRows
  intro s I buf hI
  refine ⟨rtuLen buf, exec_afterOp hI nofun rfl, rtuLen_short, fun h4 => ?_⟩
  rw [rtuLen_eq, if_neg (by omega)]
  generalize (buf.getD 1 0).toNat = code
  simp only [List.mem_cons, List.not_mem_nil, or_false, not_or]
  refine ⟨fun h => if_pos h, fun h => ?_, fun h => ?_, fun h h8 => ?_, fun h h8 => ?_, fun h h' => ?_⟩
  · rw [if_neg (by omega), if_pos h]
  · rw [if_neg (by omega), if_neg (by omega), if_neg (by omega)]
  · rw [if_neg (by omega), if_neg (by omega), if_pos h, if_pos h8]
  · rw [if_neg (by omega), if_neg (by omega), if_pos h, if_neg (by omega)]
  · rw [if_neg (by omega), if_neg (by omega), if_neg (by omega)]


/-- A known length is at most 264: the longest row is 9 bytes and a byte count (rule R69). -/
theorem rtuLen_known_le {buf : List Byte} {n : Nat} (h : rtuLen buf = .known n) : n ≤ 264 := by
  have h2 := (buf.getD 2 0).isLt
  have h6 := (buf.getD 6 0).isLt
  rw [rtuLen_eq] at h
  split_ifs at h <;> simp only [Estimate.known.injEq] at h <;> omega

/-- The length is undetermined below 8 bytes only (rules R69 and R74). -/
theorem rtuLen_undetermined_length {buf : List Byte} (h : rtuLen buf = .undetermined) : buf.length < 8 := by
  rw [rtuLen_eq] at h
  split_ifs at h
  · omega
  · assumption

/-- More bytes never change a known length: the bytes it reads are already there (rule R85). -/
theorem rtuLen_append {buf : List Byte} {n : Nat} (h : rtuLen buf = .known n) (more : List Byte) :
    rtuLen (buf ++ more) = .known n := by
  have h4 := rtuLen_known_length h
  have hlen : (buf ++ more).length = buf.length + more.length := List.length_append
  have hget : ∀ i < buf.length, (buf ++ more).getD i 0 = buf.getD i 0 := fun i hi => List.getD_append _ _ _ i hi
  rw [rtuLen_eq, if_neg (by omega)] at h
  rw [rtuLen_eq, if_neg (by omega), hget 1 (by omega), hget 2 (by omega)]
  split_ifs at h ⊢ with hexc hread hmulti hshort hlong
  · exact h
  · exact h
  · omega
  · rw [hget 6 (by omega)]; exact h
  · exact h

/-- Settles O31: the two bounds, and stability. -/
theorem knownLengthIsBoundedAndStable : Obligations.KnownLengthIsBoundedAndStable := by
  unfold Obligations.KnownLengthIsBoundedAndStable
  exact fun buf more n h => ⟨rtuLen_known_ge h, rtuLen_known_le h, rtuLen_append h more⟩

/-! ### The fields of RTU Frames (rules R77 to R79, R99) -/

/-- A finished Frame is finished: `finish` reads no field that it writes, but for the flag it has just set (rule R99). -/
theorem finish_finish (tbl : ExcTable) (f : Frame) : finish tbl (finish tbl f) = finish tbl f := by
  have hcode := finish_functionCode tbl f
  cases hf : f.functionCode with
  | none =>
    rw [hf] at hcode
    rw [finish_noCode hcode, finish_noCode hf]
    rfl
  | some fc =>
    rw [hf] at hcode
    by_cases hfc : 0x80 ≤ fc.toNat
    · rw [finish_exception hcode hfc, finish_exception hf hfc]
      rfl
    · rw [finish_regular hcode hfc, finish_regular hf hfc]
      rfl

theorem head?_eq_ite (xs : List Byte) : xs.head? = if 1 ≤ xs.length then some (xs.getD 0 0) else none := by
  cases xs <;> simp

theorem tail_head?_eq_ite (xs : List Byte) : xs.tail.head? = if 2 ≤ xs.length then some (xs.getD 1 0) else none := by
  rcases xs with _ | ⟨a, _ | ⟨b, rest⟩⟩ <;> simp

/-- The payload: everything but the first two and the last two bytes. -/
theorem slice_payload (d : List Byte) : slice d 2 (d.length - 2) = (d.drop 2).take (d.length - 4) := by
  rw [slice, List.drop_take, Nat.sub_sub]

/-- Settles O32: the fields are those set before `finish`, which leaves them alone. -/
theorem rtuReceiveFrameFields : Obligations.RtuReceiveFrameFields := by
  unfold Obligations.RtuReceiveFrameFields
  intro tbl d now hd
  have h1 : 1 ≤ d.length := by omega
  have h2 : 2 ≤ d.length := by omega
  have h4 : 4 ≤ d.length := by omega
  have hreceived : rtuReceived d = some (.crc (le16 (d.getD (d.length - 2) 0) (d.getD (d.length - 1) 0))) := if_pos h4
  have hcomputed : rtuComputed d = some (.crc (crc16 (d.take (d.length - 2)))) := if_pos h4
  have hvalid : sumsAgree (rtuReceived d) (rtuComputed d) = true ↔ rtuReceived d = rtuComputed d := by
    rw [hreceived, hcomputed, sumsAgree_some_iff, Option.some_inj]
  refine ⟨finish_transport _ _, finish_direction _ _, finish_raw _ _, finish_data _ _, ?_, ?_,
    (finish_payload _ _).trans (slice_payload d), (finish_checksumReceived _ _).trans hreceived,
    (finish_checksumComputed _ _).trans hcomputed, ?_, finish_timestamp _ _, (finish_finish _ _).symm⟩
  · exact (finish_slaveAddress _ _).trans ((head?_eq_ite d).trans (if_pos h1))
  · exact (finish_functionCode _ _).trans ((tail_head?_eq_ite d).trans (if_pos h2))
  · rw [rtuFrameRx, finish_checksumValid, finish_checksumReceived, finish_checksumComputed]
    exact hvalid

/-- Settles O33: one send Frame with the fields of rule R78, and the Inst as it was. -/
theorem rtuSendEmitsOneFrame : Obligations.RtuSendEmitsOneFrame := by
  unfold Obligations.RtuSendEmitsOneFrame
  intro s I xs now hI htr
  have hemit : effect s.excTable (Config.freeTime s.fresh) I (.tx xs now) = (I, .frames [rtuFrameTx s.excTable xs now] false) := by
    simp only [effect, sendFrame, htr]
  exact ⟨rtuFrameTx s.excTable xs now, exec_afterOp hI nofun hemit, finish_transport _ _, finish_direction _ _,
    finish_raw _ _, finish_data _ _, (finish_slaveAddress _ _).trans (head?_eq_ite xs),
    (finish_functionCode _ _).trans (tail_head?_eq_ite xs), (finish_payload _ _).trans (slice_payload xs),
    finish_checksumReceived _ _, finish_checksumComputed _ _, finish_checksumValid _ _, finish_timestamp _ _,
    (finish_finish _ _).symm⟩

/-! ### RTU extraction, one pass and its bounds (rules R76, R83) -/

theorem rtuExtract_waits {buf : List Byte} (h : rtuWaits buf = true) (tbl : ExcTable) (now : Int) :
    rtuExtract tbl buf now = ([], buf) :=
  extract_waits (tr := .rtu) h tbl now

/-- One pass emits the Frame of the first `n` bytes, whatever its CRC outcome, and goes on with the rest. -/
theorem rtuExtract_slice {buf : List Byte} {n : Nat} (h : rtuLen buf = .known n) (hn : n ≤ buf.length) (tbl : ExcTable) (now : Int) :
    rtuExtract tbl buf now =
      (rtuFrameRx tbl (buf.take n) now :: (rtuExtract tbl (buf.drop n) now).1, (rtuExtract tbl (buf.drop n) now).2) := by
  simp only [rtuExtract, rtuSlices_slice h hn, List.map_cons]

theorem rtuWaits_of_undetermined {buf : List Byte} (h : rtuLen buf = .undetermined) : rtuWaits buf = true := by
  simp only [rtuWaits, h]

theorem rtuWaits_of_known {buf : List Byte} {n : Nat} (h : rtuLen buf = .known n) : rtuWaits buf = decide (buf.length < n) := by
  simp only [rtuWaits, h]

/-- Settles O39: three ways to wait, and one pass. -/
theorem rtuExtractionLoop : Obligations.RtuExtractionLoop := by
  unfold Obligations.RtuExtractionLoop
  intro tbl buf now
  have waits := fun h => rtuExtract_waits (buf := buf) h tbl now
  refine ⟨fun h => ?_, fun h => ?_, fun n h hn => ?_, fun n h hn => rtuExtract_slice h hn tbl now⟩
  · exact waits (rtuWaits_of_undetermined (rtuLen_short h))
  · exact waits (rtuWaits_of_undetermined h)
  · exact waits ((rtuWaits_of_known h).trans (decide_eq_true hn))

/-- A buffer that waits is short of the longest row (rule R83). -/
theorem rtuWaits_length {buf : List Byte} (h : rtuWaits buf = true) : buf.length ≤ 263 := by
  cases hl : rtuLen buf with
  | undetermined =>
    have := rtuLen_undetermined_length hl
    omega
  | known n =>
    have hn : buf.length < n := of_decide_eq_true (rtuWaits_of_known hl ▸ h)
    have := rtuLen_known_le hl
    omega

/-- A slice is no longer than the longest row (rule R83). -/
theorem rtuSlices_length_le (buf : List Byte) : ∀ d ∈ (rtuSlices buf).1, d.length ≤ 264 := by
  induction buf using rtu_induction with
  | waits buf h => simp [rtuSlices_waits h]
  | slice buf n h hn ih =>
    rw [rtuSlices_slice h hn, List.forall_mem_cons]
    exact ⟨(List.length_take_le n buf).trans (rtuLen_known_le h), ih⟩

/-- Settles O42: the raw bytes of a Frame are a slice, and the residual waits. -/
theorem rtuFramesAndResidualAreBounded : Obligations.RtuFramesAndResidualAreBounded := by
  unfold Obligations.RtuFramesAndResidualAreBounded
  refine fun tbl buf now => ⟨fun f hf => ?_, rtuWaits_length (rtuSlices_residual_waits buf)⟩
  have hslice : f.raw ∈ (rtuSlices buf).1 := rtuExtract_raw tbl buf now ▸ List.mem_map_of_mem hf
  exact ⟨rtuSlices_length_ge buf _ hslice, rtuSlices_length_le buf _ hslice⟩

/-! ### Extraction does not read the time, but to stamp the Frames (rule R96) -/

theorem untimed_rtuFrameRx (tbl : ExcTable) (d : List Byte) (now : Int) : untimed (rtuFrameRx tbl d now) = rtuFrameRx tbl d 0 :=
  (finish_time tbl (rtuFieldsRx d now) 0).symm

theorem untimed_asciiFrame (tbl : ExcTable) (c raw : List Byte) (dir : Direction) (now : Int) :
    untimed (asciiFrame tbl c raw dir now) = asciiFrame tbl c raw dir 0 :=
  (finish_time tbl (asciiFields c raw dir now) 0).symm

theorem asciiCandidateRx_untimed (tbl : ExcTable) (cand : List Byte) (now : Int) :
    (asciiCandidateRx tbl cand now).map untimed = asciiCandidateRx tbl cand 0 := by
  unfold asciiCandidateRx
  dsimp only
  cases hexDecode (slice cand 1 (cand.length - 2)) with
  | none => rfl
  | some c => by_cases hc : c.length < 3 <;> simp [hc, untimed_asciiFrame]

/-- At another time extraction emits the same Frames, but for their times, and leaves the same bytes. -/
theorem extract_untimed (tbl : ExcTable) (tr : Transport) (buf : List Byte) (now : Int) :
    extract tbl tr buf 0 = ((extract tbl tr buf now).1.map untimed, (extract tbl tr buf now).2) := by
  cases tr with
  | rtu => simp [extract, rtuExtract, untimed_rtuFrameRx]
  | ascii => simp [extract, asciiExtract, List.map_filterMap, asciiCandidateRx_untimed]

/-! ### Extraction of a buffer with more bytes after it (rules R85 and R94 (c)) -/

/-- What is sliced off first is sliced off with more bytes there too: a known length does not change. -/
theorem rtuExtract_append (tbl : ExcTable) (buf more : List Byte) (now : Int) :
    rtuExtract tbl (buf ++ more) now =
      ((rtuExtract tbl buf now).1 ++ (rtuExtract tbl ((rtuExtract tbl buf now).2 ++ more) now).1,
        (rtuExtract tbl ((rtuExtract tbl buf now).2 ++ more) now).2) := by
  induction buf using rtu_induction with
  | waits buf h => rw [rtuExtract_waits h]; rfl
  | slice buf n h hn ih =>
    have hn' : n ≤ (buf ++ more).length := by rw [List.length_append]; omega
    rw [rtuExtract_slice h hn, rtuExtract_slice (rtuLen_append h more) hn', List.take_append_of_le_length hn,
      List.drop_append_of_le_length hn, ih]
    rfl

/-- The first CR LF stays the first with more bytes after it. -/
theorem splitCrlf_append : ∀ {text inner rest : List Byte}, splitCrlf text = some (inner, rest) → ∀ more,
    splitCrlf (text ++ more) = some (inner, rest ++ more)
  | [], _, _, h, _ => by simp [splitCrlf] at h
  | b :: text, inner, rest, h, more => by
    unfold splitCrlf at h
    rw [List.cons_append, splitCrlf]
    split at h
    next hc =>
      obtain ⟨rfl, rfl⟩ : [] = inner ∧ text.tail = rest := by simpa using h
      cases text with
      | nil => simp at hc
      | cons a text => exact if_pos hc
    next hc =>
      split at h
      next before after hs =>
        obtain ⟨rfl, rfl⟩ : b :: before = inner ∧ after = rest := by simpa using h
        have hne : text ≠ [] := by rintro rfl; simp [splitCrlf] at hs
        rw [if_neg (by simpa [List.head?_append_of_ne_nil _ hne] using hc), splitCrlf_append hs more]
      next => cases h

/-- The bytes before the first `:` do not matter (rule R89). -/
theorem asciiExtract_congr {buf buf' : List Byte} (h : buf.dropWhile (· != colon) = buf'.dropWhile (· != colon))
    (tbl : ExcTable) (now : Int) : asciiExtract tbl buf now = asciiExtract tbl buf' now := by
  rcases ascii_cases buf with hb | ⟨text, hb, hc⟩ | ⟨text, inner, rest, hb, hc⟩
  · rw [asciiExtract_none hb, asciiExtract_none (h.symm.trans hb)]
  · rw [asciiExtract_wait hb hc, asciiExtract_wait (h.symm.trans hb) hc]
  · rw [asciiExtract_cand hb hc, asciiExtract_cand (buf := buf') (h.symm.trans hb) hc]

/-- A first `:` stays the first with more bytes after it. -/
theorem dropWhile_append_of_colon {buf text : List Byte} (h : buf.dropWhile (· != colon) = colon :: text) (more : List Byte) :
    (buf ++ more).dropWhile (· != colon) = colon :: (text ++ more) := by
  simp [List.dropWhile_append, h]

/-- A candidate taken first is taken with more bytes there too: the first `:` and the first CR LF after it do not change. -/
theorem asciiExtract_append (tbl : ExcTable) (buf more : List Byte) (now : Int) :
    asciiExtract tbl (buf ++ more) now =
      ((asciiExtract tbl buf now).1 ++ (asciiExtract tbl ((asciiExtract tbl buf now).2 ++ more) now).1,
        (asciiExtract tbl ((asciiExtract tbl buf now).2 ++ more) now).2) := by
  induction buf using ascii_induction with
  | none buf h =>
    rw [asciiExtract_none h]
    exact asciiExtract_congr (by simp [List.dropWhile_append, h]) tbl now
  | wait buf text h hc =>
    rw [asciiExtract_wait h hc]
    exact asciiExtract_congr (by simp [dropWhile_append_of_colon h]) tbl now
  | cand buf text inner rest h hc ih =>
    rw [asciiExtract_cand h hc, asciiExtract_cand (dropWhile_append_of_colon h more) (splitCrlf_append hc more), ih,
      List.append_assoc]

/-- Extraction of bytes and more bytes: what the bytes give alone, and then what their residual gives with the rest. -/
theorem extract_append {tbl : ExcTable} {tr : Transport} {buf residual : List Byte} {fs : List Frame} {now : Int}
    (h : extract tbl tr buf now = (fs, residual)) (more : List Byte) :
    extract tbl tr (buf ++ more) now =
      (fs ++ (extract tbl tr (residual ++ more) now).1, (extract tbl tr (residual ++ more) now).2) := by
  cases tr <;> simp only [extract] at h ⊢
  · simpa only [h] using rtuExtract_append tbl buf more now
  · simpa only [h] using asciiExtract_append tbl buf more now

/-! ### The receive discipline (rules R80 to R82, R91, R94, R121) -/

/-- What RX answers and leaves, by its stale pass and its extraction: the cap check reads the residual alone. -/
theorem recvIngest_eq {tbl : ExcTable} {I : Inst} {xs kept residual : List Byte} {now : Int} {old fs : List Frame}
    (hold : stalePass tbl I now = (old, { I with buf := kept }))
    (hnew : extract tbl I.transport (kept ++ xs) now = (fs, residual)) :
    recvIngest tbl I xs now =
      ({ I with buf := if I.cap < residual.length then [] else residual, lastT := now }, old ++ fs,
        decide (I.cap < residual.length)) := by
  simp only [recvIngest, hold, extractInst, appendBytes, hnew, capCheck]
  split <;> simp [*]

/-- Settles O38: the stale pass fires or not, and the rest is the same. -/
theorem receiveDiscipline : Obligations.ReceiveDiscipline := by
  unfold Obligations.ReceiveDiscipline
  intro s I xs now hI
  have hpass : stalePass s.excTable I now =
      (if I.buf ≠ [] ∧ now - I.lastT > (I.timeout : Int) then (extract s.excTable I.transport I.buf now).1 else [],
        { I with buf := if I.buf ≠ [] ∧ now - I.lastT > (I.timeout : Int) then [] else I.buf }) := by
    simp only [← isStale_iff]
    rcases stalePass_cases s.excTable I now with ⟨hs, hp⟩ | ⟨hs, hp⟩ <;> simp [hs, hp]
  refine exec_afterOp hI nofun ?_
  rw [effect, recvIngest_eq hpass Prod.mk.eta.symm]

/-- Settles O41: the stale pass extracts a buffer that waits, and extraction ends at its fixed point. -/
theorem stalePassEmitsNothing : Obligations.StalePassEmitsNothing := by
  unfold Obligations.StalePassEmitsNothing
  intro tbl I xs now hw
  have hpass : stalePass tbl I now = ([], { I with buf := if isStale I now then [] else I.buf }) := by
    rcases stalePass_cases tbl I now with ⟨hs, hp⟩ | ⟨hs, hp⟩ <;> simp [hs, hp, extract_waits hw]
  have hok : instOk (recvIngest tbl I xs now).1 = true := instOk_recvIngest tbl I xs now
  refine ⟨by rw [hpass], ?_, ?_⟩
  · rw [recvIngest_eq hpass Prod.mk.eta.symm, List.nil_append]
  · exact (Bool.and_eq_true_iff.1 hok).1

/-- The residual of an RTU Inst is below the decided cap (rules R83 and R122). -/
theorem recvIngest_rtu {tbl : ExcTable} {I : Inst} (htr : I.transport = .rtu) (hcap : I.cap = 264) (xs : List Byte) (now : Int) :
    (recvIngest tbl I xs now).2.2 = false ∧ (recvIngest tbl I xs now).1.buf.length ≤ 263 := by
  obtain ⟨old, kept, hpass⟩ : ∃ old kept, stalePass tbl I now = (old, { I with buf := kept }) := by
    rcases stalePass_cases tbl I now with ⟨-, hp⟩ | ⟨-, hp⟩ <;> exact ⟨_, _, hp⟩
  have hres : (extract tbl I.transport (kept ++ xs) now).2.length ≤ 263 := by
    have hw := extract_residual_waits tbl I.transport (kept ++ xs) now
    rw [htr] at hw ⊢
    exact rtuWaits_length hw
  have hfit : ¬ I.cap < (extract tbl I.transport (kept ++ xs) now).2.length := by omega
  rw [recvIngest_eq hpass Prod.mk.eta.symm, if_neg hfit]
  exact ⟨decide_eq_false hfit, hres⟩

/-- Settles O43: RX is the receive discipline, on the addressed Inst. -/
theorem rtuNeverOverflows : Obligations.RtuNeverOverflows := by
  unfold Obligations.RtuNeverOverflows
  intro s I xs now hI htr hcap
  obtain ⟨hovf, hlen⟩ := recvIngest_rtu (tbl := s.excTable) htr hcap xs now
  exact ⟨_, _, exec_afterOp hI nofun (by rw [effect, hovf]), hlen⟩

/-! ### A stream in fragments (rules R85 and R94 (c)) -/

/-- Within TIMEOUT the stale pass does nothing. -/
theorem stalePass_within {I : Inst} {now : Int} (h : now - I.lastT ≤ (I.timeout : Int)) (tbl : ExcTable) :
    stalePass tbl I now = ([], I) := by
  rcases stalePass_cases tbl I now with ⟨hs, -⟩ | ⟨-, hp⟩
  · have := ((isStale_iff I now).1 hs).2
    omega
  · exact hp

/-- Fragments give what one extraction of the whole stream gives, while none overflows: the residual of each waits for the next. -/
theorem rxAll_eq_extract {tbl : ExcTable} {I : Inst} {frags : List (List Byte × Int)} (hI : instOk I = true)
    (hgaps : gapsWithin I.timeout I.lastT frags = true) (hovf : (rxAll tbl I frags).2.2 = false) :
    extract tbl I.transport (I.buf ++ frags.flatMap Prod.fst) 0 =
        ((rxAll tbl I frags).2.1.map untimed, (rxAll tbl I frags).1.buf) ∧
      (rxAll tbl I frags).1.buf.length ≤ I.cap := by
  induction frags generalizing I with
  | nil =>
    obtain ⟨hw, hlen⟩ := Bool.and_eq_true_iff.1 hI
    rw [List.flatMap_nil, List.append_nil, extract_waits hw]
    exact ⟨rfl, of_decide_eq_true hlen⟩
  | cons frag rest ih =>
    obtain ⟨xs, now⟩ := frag
    obtain ⟨hgap, hgaps⟩ := Bool.and_eq_true_iff.1 hgaps
    obtain ⟨hovf₁, hovf⟩ := Bool.or_eq_false_iff.1 hovf
    have hok := instOk_recvIngest tbl I xs now
    have hrx := recvIngest_eq (stalePass_within (of_decide_eq_true hgap) tbl) (xs := xs) Prod.mk.eta.symm
    have hfit : ¬ I.cap < (extract tbl I.transport (I.buf ++ xs) now).2.length := of_decide_eq_false (by rwa [hrx] at hovf₁)
    rw [if_neg hfit] at hrx
    rw [hrx] at hok hovf
    obtain ⟨hex, hlen⟩ := ih hok hgaps hovf
    simp only [rxAll, hrx]
    refine ⟨?_, hlen⟩
    rw [List.flatMap_cons, ← List.append_assoc, extract_append (extract_untimed tbl I.transport (I.buf ++ xs) now), hex]
    simp

/-- Settles O46: both sides are one extraction of the whole stream. -/
theorem fragmentationDoesNotMatterBelowTheCap : Obligations.FragmentationDoesNotMatterBelowTheCap := by
  unfold Obligations.FragmentationDoesNotMatterBelowTheCap
  intro tbl I frags t hw hlen hgaps ht hovf
  have hI : instOk I = true := Bool.and_eq_true_iff.2 ⟨hw, decide_eq_true hlen⟩
  obtain ⟨hfrags, hcap⟩ := rxAll_eq_extract hI hgaps hovf
  have hwhole := hfrags.symm.trans (extract_untimed tbl I.transport _ t)
  obtain ⟨hframes, hbuf⟩ := Prod.mk.inj hwhole
  rw [hbuf] at hcap
  rw [recvIngest_eq (stalePass_within ht tbl) Prod.mk.eta.symm, if_neg (Nat.not_lt.2 hcap)]
  exact ⟨hframes, hbuf, decide_eq_false (Nat.not_lt.2 hcap)⟩

/-- No fragment overflows an RTU Inst with the decided cap. -/
theorem rxAll_rtu {tbl : ExcTable} {I : Inst} (htr : I.transport = .rtu) (hcap : I.cap = 264) (frags : List (List Byte × Int)) :
    (rxAll tbl I frags).2.2 = false := by
  induction frags generalizing I with
  | nil => rfl
  | cons frag rest ih =>
    obtain ⟨htr', -, -, hcap', -⟩ := recvIngest_fields tbl I frag.1 frag.2
    exact Bool.or_eq_false_iff.2 ⟨(recvIngest_rtu htr hcap _ _).1, ih (htr'.trans htr) (hcap'.trans hcap)⟩

/-- Settles O45: with the decided cap no fragment overflows, and the buffer is within it. -/
theorem rtuFragmentationDoesNotMatter : Obligations.RtuFragmentationDoesNotMatter := by
  unfold Obligations.RtuFragmentationDoesNotMatter
  intro tbl I frags t htr hcap hw hgaps ht
  have hlen : I.buf.length ≤ I.cap := by
    have : I.buf.length ≤ 263 := rtuWaits_length (by rwa [htr] at hw)
    omega
  obtain ⟨hframes, hbuf, -⟩ :=
    fragmentationDoesNotMatterBelowTheCap tbl I frags t hw hlen hgaps ht (rxAll_rtu htr hcap frags)
  exact ⟨hframes, hbuf⟩

/-! ### The round trip (rules R76, R77; 90_conflicts C5) -/

/-- The content of a recognized frame whose length is its row's gives a payload that its code's shape can read. -/
theorem interpretable_of_rtuLen {content : List Byte} {lo hi : Byte}
    (h : rtuLen (content ++ [lo, hi]) = .known (content.length + 2))
    (hcode : (content.getD 1 0).toNat ∈ [0x01, 0x02, 0x03, 0x04, 0x05, 0x06, 0x08, 0x0F, 0x10]) :
    interpretable (some (content.getD 1 0)) (content.drop 2) = true := by
  have h5 := rtuLen_known_ge h
  rw [rtuLen_eq, List.getD_append _ _ _ 1 (by omega)] at h
  rw [interpretable_iff]
  refine ⟨_, rfl, ?_⟩
  rw [List.length_drop]
  generalize (content.getD 1 0).toNat = code at h hcode ⊢
  simp only [List.mem_cons, List.not_mem_nil, or_false] at hcode h ⊢
  split_ifs at h <;> simp only [Estimate.known.injEq] at h <;> omega

/-- A buffer that is one whole row is one Frame, and nothing stays. -/
theorem rtuExtract_whole {d : List Byte} (h : rtuLen d = .known d.length) (tbl : ExcTable) (now : Int) :
    rtuExtract tbl d now = ([rtuFrameRx tbl d now], []) := by
  rw [rtuExtract_slice h le_rfl, List.take_length, List.drop_length, rtuExtract_waits rfl]

/-- A valid finished Frame of a code below 0x80 is interpreted by its payload (rule R101). -/
theorem interpreted_of_valid {f : Frame} {fc : Byte} {tbl : ExcTable} (hfinished : f = finish tbl f) (hcode : f.functionCode = some fc)
    (hfc : fc.toNat < 0x80) (hvalid : f.checksumValid = true) : f.interpreted = interpret fc f.payload :=
  calc f.interpreted = (finish tbl f).interpreted := congrArg Frame.interpreted hfinished
    _ = interpret fc f.payload := by rw [finish_regular hcode (by omega), hvalid, if_pos rfl]

/-- Settles O47: the frame is one slice, its trailing bytes are its CRC, and nothing stays. -/
theorem rtuRoundTrip : Obligations.RtuRoundTrip := by
  unfold Obligations.RtuRoundTrip
  intro tbl I content now htr hbuf hlen
  have hcrc := le16_of_bytes (crc16 content)
  generalize (crc16 content).setWidth 8 = lo at hlen hcrc ⊢
  generalize (crc16 content >>> 8).setWidth 8 = hi at hlen hcrc ⊢
  have hsize : (content ++ [lo, hi]).length = content.length + 2 := by simp
  have h5 := rtuLen_known_ge hlen
  have hextract : extract tbl I.transport ([] ++ (content ++ [lo, hi])) now = ([rtuFrameRx tbl (content ++ [lo, hi]) now], []) := by
    rw [htr, List.nil_append]
    exact rtuExtract_whole (hsize ▸ hlen) tbl now
  have hpass : stalePass tbl I now = ([], { I with buf := [] }) := by rw [stalePass_empty hbuf, ← hbuf]
  have hvalid := (rtuFrameRx_checksumValid_append (by omega) lo hi tbl now).2 hcrc
  obtain ⟨-, -, -, hdata, haddr, hcode, hpayload, -, -, -, -, hfinished⟩ :=
    rtuReceiveFrameFields tbl (content ++ [lo, hi]) now (by omega)
  rw [List.getD_append _ _ _ _ (by omega)] at haddr hcode
  have hrest : ((content ++ [lo, hi]).drop 2).take ((content ++ [lo, hi]).length - 4) = content.drop 2 := by
    rw [List.drop_append_of_le_length (by omega), hsize]
    exact List.take_left' (by rw [List.length_drop]; omega)
  rw [hrest] at hpayload
  refine ⟨rtuFrameRx tbl (content ++ [lo, hi]) now, ?_, hvalid, hdata, haddr, hcode, hpayload, fun hrecognized => ?_⟩
  · rw [recvIngest_eq hpass hextract]
    simp [hbuf]
  · have hlow : (content.getD 1 0).toNat < 0x80 := by
      simp only [List.mem_cons, List.not_mem_nil, or_false] at hrecognized
      omega
    have hinterp := interpreted_of_valid hfinished hcode hlow hvalid
    rw [hpayload] at hinterp
    refine ⟨hinterp, ?_⟩
    rw [hinterp, ← Option.isSome_iff_ne_none, interpret_isSome]
    exact interpretable_of_rtuLen hlen hrecognized

end Sys2Proof.Machine

/-! # The ASCII framer: hex text, delimiters, Frames, sending, extraction (42_ascii_framer, rules R86 to R95)

The order: the hex text of bytes; the delimiters by index; the fields of ASCII Frames; sending; candidates and the extraction loop; the round trip. -/

namespace Sys2Proof.Machine

/-! ### The hex text of bytes (rules R87 and R88) -/

theorem hexVal_hexChar : ∀ n < 16, hexVal (hexChar n) = some n := by
  decide

/-- The pairs of the encoding are the bytes, high nibble first. -/
theorem hexPairs_hexEncode (bs : List Byte) : hexPairs (hexEncode bs) = some bs := by
  induction bs with
  | nil => rfl
  | cons b bs ih =>
    have hb : b.toNat < 256 := b.isLt
    have hhi := hexVal_hexChar (b.toNat / 16) (by omega)
    have hlo := hexVal_hexChar (b.toNat % 16) (by omega)
    have hbyte : BitVec.ofNat 8 (b.toNat / 16 * 16 + b.toNat % 16) = b := by
      rw [Nat.div_add_mod', BitVec.ofNat_toNat, BitVec.setWidth_eq]
    rw [hexEncode] at ih
    simp [hexEncode, hexPairs, hhi, hlo, ih, hbyte]

/-- Each decoded byte stands for two characters. -/
theorem hexPairs_length : ∀ {cs bs : List Byte}, hexPairs cs = some bs → cs.length = 2 * bs.length
  | [], _, h => by cases h; rfl
  | [_], _, h => by cases h
  | hi :: lo :: rest, bs, h => by
    rw [hexPairs] at h
    split at h
    next a b bytes _ _ hrest =>
      cases h
      simp only [List.length_cons, hexPairs_length hrest]
      omega
    next => cases h

theorem hexDecode_hexEncode (bs : List Byte) : hexDecode (hexEncode bs) = some bs := by
  have heven := hexPairs_length (hexPairs_hexEncode bs)
  rw [hexDecode, if_neg (by omega), hexPairs_hexEncode]

/-- A decoded text has half its length in bytes, rounded up for the padding zero. -/
theorem hexDecode_length {cs bs : List Byte} (h : hexDecode cs = some bs) : bs.length = (cs.length + 1) / 2 := by
  unfold hexDecode at h
  split at h
  next =>
    have hpairs := hexPairs_length h
    rw [List.length_cons] at hpairs
    omega
  next =>
    have hpairs := hexPairs_length h
    omega

/-- Settles O22: the pairs of the encoding are the bytes, and each byte stands for two characters. -/
theorem hexDecodeUndoesHexEncode : Obligations.HexDecodeUndoesHexEncode := by
  unfold Obligations.HexDecodeUndoesHexEncode
  exact ⟨hexDecode_hexEncode, fun _ _ => hexDecode_length⟩

/-! ### The delimiters by index (rules R86, R92, R93) -/

theorem head?_eq_some_iff_getD (xs : List Byte) (b : Byte) : xs.head? = some b ↔ 1 ≤ xs.length ∧ xs.getD 0 0 = b := by
  cases xs <;> simp

/-- The text ends in CR LF, by its last two characters. -/
theorem endsCrlf_iff (xs : List Byte) :
    endsCrlf xs = true ↔ 2 ≤ xs.length ∧ xs.getD (xs.length - 2) 0 = cr ∧ xs.getD (xs.length - 1) 0 = lf := by
  by_cases h : 2 ≤ xs.length
  · obtain ⟨text, a, b, rfl⟩ := exists_append_pair h
    simp [endsCrlf]
  · have hne : xs.drop (xs.length - 2) ≠ [cr, lf] := fun heq => by
      have hlen := congrArg List.length heq
      simp only [List.length_drop, List.length_cons, List.length_nil] at hlen
      omega
    simp [endsCrlf, hne, h]

/-- The delimiter test of rule R92 by index. -/
theorem delimited_iff (xs : List Byte) :
    delimited xs = true ↔
      3 ≤ xs.length ∧ xs.getD 0 0 = colon ∧ xs.getD (xs.length - 2) 0 = cr ∧ xs.getD (xs.length - 1) 0 = lf := by
  simp only [delimited, Bool.and_eq_true, decide_eq_true_eq, head?_eq_some_iff_getD, endsCrlf_iff]
  constructor
  · rintro ⟨⟨hlen, -, hhead⟩, -, hcr, hlf⟩
    exact ⟨hlen, hhead, hcr, hlf⟩
  · rintro ⟨hlen, hhead, hcr, hlf⟩
    exact ⟨⟨hlen, by omega, hhead⟩, by omega, hcr, hlf⟩

theorem stripStart_eq_ite (xs : List Byte) :
    stripStart xs = if 1 ≤ xs.length ∧ xs.getD 0 0 = colon then xs.drop 1 else xs := by
  simp only [stripStart, head?_eq_some_iff_getD]

theorem stripEnd_eq_ite (xs : List Byte) :
    stripEnd xs = if 2 ≤ xs.length ∧ xs.getD (xs.length - 2) 0 = cr ∧ xs.getD (xs.length - 1) 0 = lf
      then xs.take (xs.length - 2) else xs := by
  simp only [stripEnd, endsCrlf_iff]

/-- A delimited text is stripped of its first and its last two characters. -/
theorem strip_of_delimited {xs : List Byte} (h : delimited xs = true) : strip xs = (xs.drop 1).take (xs.length - 3) := by
  obtain ⟨raw, rfl⟩ : ∃ raw, xs = delimit raw := ⟨strip xs, (delimit_strip h).symm⟩
  rw [strip_delimit]
  simp [delimit]

/-! ### The fields of ASCII Frames (rule R95) -/

/-- Settles O34: the fields are those set before `finish`, which leaves them alone. -/
theorem asciiFrameFields : Obligations.AsciiFrameFields := by
  unfold Obligations.AsciiFrameFields
  intro tbl c raw dir now hc
  have h1 : 1 ≤ c.length := by omega
  have h2 : 2 ≤ c.length := by omega
  have hpayload : slice c 2 (c.length - 1) = (c.drop 2).take (c.length - 3) := by
    rw [slice, List.drop_take, Nat.sub_sub]
  have hreceived : asciiReceived c = some (.lrc (c.getD (c.length - 1) 0)) := if_pos hc
  have hcomputed : asciiComputed c = some (.lrc (lrc (c.take (c.length - 1)))) := if_pos hc
  have hvalid : asciiValid dir c = true ↔ dir = .send ∨ asciiReceived c = asciiComputed c := by
    cases dir with
    | send => simp [asciiValid]
    | receive => rw [asciiValid, hreceived, hcomputed, sumsAgree_some_iff, Option.some_inj]; simp
  refine ⟨finish_transport _ _, finish_direction _ _, finish_raw _ _, finish_data _ _, ?_, ?_,
    (finish_payload _ _).trans hpayload, (finish_checksumReceived _ _).trans hreceived,
    (finish_checksumComputed _ _).trans hcomputed, ?_, finish_timestamp _ _, (finish_finish _ _).symm⟩
  · exact (finish_slaveAddress _ _).trans ((head?_eq_ite c).trans (if_pos h1))
  · exact (finish_functionCode _ _).trans ((tail_head?_eq_ite c).trans (if_pos h2))
  · rw [asciiFrame, finish_checksumValid, finish_checksumReceived, finish_checksumComputed]
    exact hvalid

/-! ### Sending (rules R92 and R93) -/

/-- A delimited operand that decodes to at least 3 bytes is parsed. -/
theorem asciiFrameTx_parsed {xs c : List Byte} (hdel : delimited xs = true) (hdec : hexDecode (strip xs) = some c)
    (hc : 3 ≤ c.length) (tbl : ExcTable) (now : Int) :
    asciiFrameTx tbl xs now = asciiFrame tbl c (strip xs) .send now := by
  simp only [asciiFrameTx, hdel, hdec, hc, if_true]

/-- Every other operand fails: no delimiters, no hex text, or fewer than 3 bytes. -/
theorem asciiFrameTx_failed {xs : List Byte}
    (h : ¬ delimited xs = true ∨ hexDecode (strip xs) = none ∨ ∃ c, hexDecode (strip xs) = some c ∧ c.length < 3)
    (tbl : ExcTable) (now : Int) : asciiFrameTx tbl xs now = asciiFailTx (strip xs) now := by
  rcases h with hdel | hdec | ⟨c, hdec, hc⟩
  · exact if_neg hdel
  · simp only [asciiFrameTx, hdec, ite_self]
  · simp only [asciiFrameTx, hdec, Nat.not_le.2 hc, if_false, ite_self]

/-- TX on an ASCII Inst answers the one Frame of its operand and leaves the Inst as it is. -/
theorem exec_tx_ascii {s : State} {I : Inst} (hI : Addressed s I) (htr : I.transport = .ascii) {xs : List Byte} {now : Int}
    {f : Frame} (hf : asciiFrameTx s.excTable xs now = f) :
    exec (.tx xs now) s = .next (afterOp s I (.frames [f] false)) :=
  exec_afterOp hI nofun (by simp only [effect, sendFrame, htr, hf])

/-- Settles O35: the tests by index are the delimiter test and the two halves of `strip`. -/
theorem asciiSendEmitsOneFrame : Obligations.AsciiSendEmitsOneFrame := by
  unfold Obligations.AsciiSendEmitsOneFrame
  intro s I xs now hI htr n closed start m raw failure
  have hclosed : delimited xs = true ↔ closed := delimited_iff xs
  have hraw : strip xs = raw := by
    rw [strip, stripStart_eq_ite]
    exact stripEnd_eq_ite start
  have hfailure : asciiFailTx (strip xs) now = failure := by rw [hraw]; rfl
  rw [← hclosed, ← hraw]
  refine ⟨strip_of_delimited, fun c hdel hdec hc => ?_, fun h => ?_⟩
  · exact exec_tx_ascii hI htr (asciiFrameTx_parsed hdel hdec hc _ now)
  · exact exec_tx_ascii hI htr ((asciiFrameTx_failed h _ now).trans hfailure)

/-! ### Candidates (rule R90) -/

theorem asciiCandidateRx_frame {inner c : List Byte} (hdec : hexDecode inner = some c) (hc : 3 ≤ c.length)
    (tbl : ExcTable) (now : Int) :
    asciiCandidateRx tbl (delimit inner) now = some (asciiFrame tbl c inner .receive now) := by
  simp only [asciiCandidateRx, slice_delimit, hdec, Nat.not_lt.2 hc, if_false]

theorem asciiCandidateRx_dropped {inner : List Byte} (h : ∀ c, hexDecode inner = some c → c.length < 3)
    (tbl : ExcTable) (now : Int) : asciiCandidateRx tbl (delimit inner) now = none := by
  simp only [asciiCandidateRx, slice_delimit]
  split
  next => rfl
  next c hdec => exact if_pos (h c hdec)

/-- Settles O36: the candidate's text decodes to 3 bytes or more, or it is dropped. -/
theorem asciiCandidateBecomesAFrame : Obligations.AsciiCandidateBecomesAFrame := by
  unfold Obligations.AsciiCandidateBecomesAFrame
  intro tbl inner now
  cases hdec : hexDecode inner with
  | none => exact asciiCandidateRx_dropped (by simp [hdec]) tbl now
  | some c =>
    by_cases hc : c.length < 3
    · exact (asciiCandidateRx_dropped (by simp [hdec, hc]) tbl now).trans (if_pos hc).symm
    · exact (asciiCandidateRx_frame hdec (Nat.not_lt.1 hc) tbl now).trans (if_neg hc).symm

/-! ### The extraction loop, one pass (rule R89) -/

/-- Without a `:` everything is junk. -/
theorem dropWhile_junk {junk : List Byte} (h : colon ∉ junk) : junk.dropWhile (· != colon) = [] :=
  List.dropWhile_eq_nil_iff.2 fun b hb => by
    have hne : b ≠ colon := fun heq => h (heq ▸ hb)
    simpa using hne

/-- Junk before a `:` is dropped. -/
theorem dropWhile_junk_append {junk : List Byte} (h : colon ∉ junk) (text : List Byte) :
    (junk ++ colon :: text).dropWhile (· != colon) = colon :: text := by
  simp [List.dropWhile_append, dropWhile_junk h]

theorem hasCrlf_cons (b : Byte) (text : List Byte) :
    hasCrlf (b :: text) = (decide (b = cr ∧ text.head? = some lf) || hasCrlf text) := by
  cases text <;> simp [hasCrlf]

/-- A CR LF that no other precedes, not even by ending in its CR, is the first. -/
theorem splitCrlf_first {inner : List Byte} (h : hasCrlf (inner ++ [cr]) = false) (rest : List Byte) :
    splitCrlf (inner ++ cr :: lf :: rest) = some (inner, rest) := by
  induction inner with
  | nil => simp [splitCrlf]
  | cons b inner ih =>
    have hhead : (inner ++ cr :: lf :: rest).head? = (inner ++ [cr]).head? := by cases inner <;> rfl
    rw [List.cons_append, hasCrlf_cons, Bool.or_eq_false_iff, decide_eq_false_iff_not, ← hhead] at h
    obtain ⟨hb, hinner⟩ := h
    rw [List.cons_append, splitCrlf, if_neg hb, ih hinner]

/-- One pass: junk is discarded, a candidate gives its Frame or nothing, and the loop goes on after it. -/
theorem asciiExtract_delimit {junk inner : List Byte} (hjunk : colon ∉ junk) (hinner : hasCrlf (inner ++ [cr]) = false)
    (rest : List Byte) (tbl : ExcTable) (now : Int) :
    asciiExtract tbl (junk ++ colon :: (inner ++ cr :: lf :: rest)) now =
      ((asciiCandidateRx tbl (delimit inner) now).toList ++ (asciiExtract tbl rest now).1, (asciiExtract tbl rest now).2) :=
  asciiExtract_cand (dropWhile_junk_append hjunk _) (splitCrlf_first hinner rest) tbl now

/-- Settles O40: no `:`, a `:` that waits, and a candidate. -/
theorem asciiExtractionLoop : Obligations.AsciiExtractionLoop := by
  unfold Obligations.AsciiExtractionLoop
  refine ⟨fun tbl buf now h => ?_, fun tbl junk text now hjunk htext => ?_, fun tbl junk inner rest now hjunk hinner => ?_⟩
  · exact asciiExtract_none (dropWhile_junk h) tbl now
  · exact asciiExtract_wait (dropWhile_junk_append hjunk text) ((splitCrlf_none_iff text).2 htext) tbl now
  · rw [List.append_assoc, List.cons_append]
    exact asciiExtract_delimit hjunk hinner rest tbl now

/-! ### The round trip (rules R89, R90, R95; 90_conflicts C5) -/

theorem hasCrlf_of_lf_not_mem {text : List Byte} (h : lf ∉ text) : hasCrlf text = false := by
  induction text with
  | nil => rfl
  | cons b text ih =>
    have hhead : text.head? ≠ some lf := fun heq => h (List.mem_cons_of_mem b (List.mem_of_head? heq))
    simp [hasCrlf_cons, hhead, ih (fun hmem => h (List.mem_cons_of_mem b hmem))]

/-- A text that decodes holds no LF, which is no hex character (rule R86). -/
theorem lf_not_mem_of_hexDecode {cs bs : List Byte} (h : hexDecode cs = some bs) : lf ∉ cs := fun hmem => by
  rw [hexDecode_foreign ⟨lf, hmem, rfl⟩] at h
  cases h

/-- A buffer that is one delimited hex text of at least 3 bytes is one Frame, and nothing stays. -/
theorem asciiExtract_whole {inner c : List Byte} (hdec : hexDecode inner = some c) (hc : 3 ≤ c.length)
    (tbl : ExcTable) (now : Int) :
    asciiExtract tbl (delimit inner) now = ([asciiFrame tbl c inner .receive now], []) := by
  have hcr : hasCrlf (inner ++ [cr]) = false := by
    refine hasCrlf_of_lf_not_mem fun hmem => ?_
    rcases List.mem_append.1 hmem with hmem | hmem
    · exact lf_not_mem_of_hexDecode hdec hmem
    · exact absurd (List.mem_singleton.1 hmem) (by decide)
  calc asciiExtract tbl (delimit inner) now
      = ((asciiCandidateRx tbl (delimit inner) now).toList ++ [], []) :=
        asciiExtract_delimit (junk := []) List.not_mem_nil hcr [] tbl now
    _ = ([asciiFrame tbl c inner .receive now], []) := by rw [asciiCandidateRx_frame hdec hc]; rfl

/-- A recognized code has no interpretation exactly when the payload is too short for its shape (rule R98). -/
theorem interpret_eq_none_iff {fc : Byte} (h : fc.toNat ∈ [0x01, 0x02, 0x03, 0x04, 0x05, 0x06, 0x08, 0x0F, 0x10])
    (p : List Byte) : interpret fc p = none ↔ p.length < (if fc.toNat ≤ 0x04 then 1 else 4) := by
  rw [← not_iff_not, ← Ne, ← Option.isSome_iff_ne_none, interpret_isSome, interpretable_iff]
  simp only [Option.some.injEq, exists_eq_left', List.mem_cons, List.not_mem_nil, or_false] at h ⊢
  split_ifs <;> omega

/-- Settles O48: the text is one candidate, its last byte is its LRC, and nothing stays. -/
theorem asciiRoundTrip : Obligations.AsciiRoundTrip := by
  unfold Obligations.AsciiRoundTrip
  intro tbl I content now htr hbuf hlen
  have hvalid := (asciiFrame_checksumValid_append hlen (lrc content) tbl (hexEncode (content ++ [lrc content])) now).2 rfl
  generalize lrc content = b at hvalid ⊢
  have hsize : (content ++ [b]).length = content.length + 1 := by simp
  have hextract : extract tbl I.transport ([] ++ delimit (hexEncode (content ++ [b]))) now =
      ([asciiFrame tbl (content ++ [b]) (hexEncode (content ++ [b])) .receive now], []) := by
    rw [htr, List.nil_append]
    exact asciiExtract_whole (hexDecode_hexEncode _) (by omega) tbl now
  have hpass : stalePass tbl I now = ([], { I with buf := [] }) := by rw [stalePass_empty hbuf, ← hbuf]
  obtain ⟨-, -, -, hdata, haddr, hcode, hpayload, -, -, -, -, hfinished⟩ :=
    asciiFrameFields tbl (content ++ [b]) (hexEncode (content ++ [b])) .receive now (by omega)
  rw [List.getD_append _ _ _ _ (by omega)] at haddr hcode
  have hrest : ((content ++ [b]).drop 2).take ((content ++ [b]).length - 3) = content.drop 2 := by
    rw [List.drop_append_of_le_length hlen, hsize]
    exact List.take_left' (by rw [List.length_drop]; omega)
  rw [hrest] at hpayload
  refine ⟨asciiFrame tbl (content ++ [b]) (hexEncode (content ++ [b])) .receive now, ?_, hvalid, hdata, haddr, hcode,
    hpayload, fun hrecognized => ?_⟩
  · refine (recvIngest_eq hpass hextract).trans ?_
    simp [hbuf]
  · have hlow : (content.getD 1 0).toNat < 0x80 := by
      simp only [List.mem_cons, List.not_mem_nil, or_false] at hrecognized
      omega
    have hinterp := interpreted_of_valid hfinished hcode hlow hvalid
    rw [hpayload] at hinterp ⊢
    exact ⟨hinterp, hinterp ▸ interpret_eq_none_iff hrecognized _⟩

end Sys2Proof.Machine

/-! # The interpreter: payload decodes, the exception-message table, and what finishes a Frame (43_interpreter, rules R96 to R113) -/

namespace Sys2Proof.Machine

/-! ### INTERPRET by function code (rules R101 to R112) -/

/-- INTERPRET answers the decode and leaves the Inst as it is. -/
theorem exec_interpret {s : State} {I : Inst} {fc : Byte} {p : List Byte} {v : Option InterpretedPayload}
    (hI : Addressed s I) (h : interpret fc p = v) : exec (.interpret fc p) s = .next (afterOp s I (.payload v)) := by
  subst h
  exact exec_afterOp hI nofun rfl

/-- Settles O23: the four read codes dispatch to the two read decodes. -/
theorem interpretReads : Obligations.InterpretReads := by
  unfold Obligations.InterpretReads
  intro s I p hI
  exact ⟨exec_interpret hI (interpBits_eq p), exec_interpret hI (interpBits_eq p),
    exec_interpret hI (interpRegs_eq p), exec_interpret hI (interpRegs_eq p)⟩

/-- Settles O24: each of the three codes dispatches to its own decode. -/
theorem interpretSingleWritesAndDiagnostics : Obligations.InterpretSingleWritesAndDiagnostics := by
  unfold Obligations.InterpretSingleWritesAndDiagnostics
  intro s I p hI
  exact ⟨exec_interpret hI (interp05_eq p), exec_interpret hI (interp06_eq p), exec_interpret hI (interp08_eq p)⟩

/-- Settles O25: both codes dispatch to the write-multiple decode, each with its own unpacking. -/
theorem interpretMultipleWrites : Obligations.InterpretMultipleWrites := by
  unfold Obligations.InterpretMultipleWrites
  intro s I p hI
  exact ⟨exec_interpret hI (interp0F_eq p), exec_interpret hI (interp10_eq p)⟩

/-- An unrecognized code is an exception code or an unknown one, and neither has a decode (rule R112). -/
theorem interpret_unrecognized {fc : Byte}
    (hnine : fc.toNat ∉ [0x01, 0x02, 0x03, 0x04, 0x05, 0x06, 0x08, 0x0F, 0x10]) (p : List Byte) :
    interpret fc p = none := by
  by_cases hfc : 0x80 ≤ fc.toNat
  · rw [interpret, (classOf_exception_iff fc).2 hfc]
  · rw [interpret, classOf_unknown (Nat.lt_of_not_le hfc) hnine]

/-- Settles O26: no class of an unrecognized code has a decode. -/
theorem interpretOfOtherCodesIsNone : Obligations.InterpretOfOtherCodesIsNone := by
  unfold Obligations.InterpretOfOtherCodesIsNone
  exact fun s I fc p hI hnine => exec_interpret hI (interpret_unrecognized hnine p)

/-! ### The exception-message table (rules R58 and R113) -/

/-- Entries for other codes do not answer. -/
theorem excMsg_append {before : ExcTable} {code : Byte} (h : ∀ e ∈ before, e.1 ≠ code) (after : ExcTable) :
    excMsg (before ++ after) code = excMsg after code := by
  induction before with
  | nil => rfl
  | cons e rest ih =>
    obtain ⟨hne, hrest⟩ := List.forall_mem_cons.1 h
    rw [List.cons_append, excMsg, if_neg hne.symm, ih hrest]

/-- The first entry for a code answers it. -/
theorem excMsg_listed {before : ExcTable} {code : Byte} (h : ∀ e ∈ before, e.1 ≠ code) (m : Msg) (after : ExcTable) :
    excMsg (before ++ (code, m) :: after) code = m := by
  rw [excMsg_append h, excMsg, if_pos rfl]

theorem excMsg_unlisted {tbl : ExcTable} {code : Byte} (h : ∀ e ∈ tbl, e.1 ≠ code) : excMsg tbl code = .unknownError := by
  rw [← List.append_nil tbl, excMsg_append h, excMsg]

/-- The codes the default table lists are within 0x01-0x0B, and 0x09 is none of them. -/
theorem defaultExcTable_codes : ∀ e ∈ defaultExcTable, e.1.toNat ≠ 0x00 ∧ e.1.toNat ≠ 0x09 ∧ e.1.toNat < 0x0C := by
  decide

/-- Settles O28: the first entry for the code answers, and the default table, entry by entry. -/
theorem exceptionMessageTable : Obligations.ExceptionMessageTable := by
  unfold Obligations.ExceptionMessageTable
  refine ⟨fun s I code hI => exec_afterOp hI nofun rfl, fun before after code m h => excMsg_listed h m after,
    fun tbl code => excMsg_unlisted, rfl, rfl, rfl, rfl, rfl, rfl, rfl, rfl, rfl, rfl, fun code hcode => ?_⟩
  refine excMsg_unlisted fun e he heq => ?_
  have hlisted := defaultExcTable_codes e he
  rw [heq] at hlisted
  omega

/-! ### What finishes a Frame (rules R99 to R101) -/

/-- The original function of an exception code, as a number (rule R100). -/
theorem sub_0x80_eq_ofNat {fc : Byte} (hfc : 0x80 ≤ fc.toNat) : fc - 0x80 = BitVec.ofNat 8 (fc.toNat - 0x80) := by
  bv_omega

/-- Settles O37: no function code, an exception code, and a regular code. -/
theorem finishSetsExceptionAndInterpreted : Obligations.FinishSetsExceptionAndInterpreted := by
  unfold Obligations.FinishSetsExceptionAndInterpreted
  intro tbl f
  cases hcode : f.functionCode with
  | none => simp [finish_noCode hcode, noException, hcode]
  | some fc =>
    by_cases hfc : 0x80 ≤ fc.toNat
    · simpa [finish_exception hcode hfc, asException, hcode, hfc] using sub_0x80_eq_ofNat hfc
    · simp [finish_regular hcode hfc, noException, hcode, hfc]

end Sys2Proof.Machine

/-! # The control commands and the host's moves (44_control, rules R116 to R124)

The order: RESET, SET_TIMEOUT and FLUSH on the addressed Inst, what a FLUSH leaves for the RX after it, the illegal word, and the host's other moves. -/

namespace Sys2Proof.Machine

/-! ### RESET, SET_TIMEOUT, FLUSH (rules R118 to R120) -/

/-- Settles O12: RESET is its effect, and the one instruction that uses a free value, which LAST_T takes. -/
theorem resetCommandRestoresTheCreationState : Obligations.ResetCommandRestoresTheCreationState := by
  unfold Obligations.ResetCommandRestoresTheCreationState
  intro s I hI
  refine ⟨Config.freeTime s.fresh, ?_⟩
  rw [exec_live hI, countFree, if_pos rfl]
  rfl

/-- Settles O13: the effect of SET_TIMEOUT writes one field. -/
theorem setTimeoutWritesTimeoutOnly : Obligations.SetTimeoutWritesTimeoutOnly := by
  unfold Obligations.SetTimeoutWritesTimeoutOnly
  exact fun s I v hI => exec_afterOp hI nofun rfl

/-- Settles O14: the stale pass fires or not. -/
theorem flushRunsTheStalePass : Obligations.FlushRunsTheStalePass := by
  unfold Obligations.FlushRunsTheStalePass
  intro s I now hI
  simp only [← isStale_iff]
  rcases stalePass_cases s.excTable I now with ⟨hs, hp⟩ | ⟨hs, hp⟩
  · rw [if_pos hs]
    exact exec_afterOp hI nofun (by rw [effect, hp])
  · rw [if_neg (by simp [hs])]
    exact exec_afterOp hI nofun (by rw [effect, hp])

/-! ### A FLUSH before an RX (rule R120, corner case (c)) -/

/-- What is stale stays stale at every later time. -/
theorem isStale_mono {I : Inst} {t t' : Int} (ht : t ≤ t') (hs : isStale I t = true) : isStale I t' = true := by
  obtain ⟨hne, hgap⟩ := (isStale_iff I t).1 hs
  exact (isStale_iff I t').2 ⟨hne, by omega⟩

/-- A stale buffer that waits is discarded without a Frame. -/
theorem stalePass_stale_waits {I : Inst} {now : Int} (hw : bufWaits I.transport I.buf = true) (hs : isStale I now = true)
    (tbl : ExcTable) : stalePass tbl I now = ([], { I with buf := [] }) := by
  rw [stalePass, if_pos hs, extract_waits hw]

/-- On a buffer that waits, a stale pass makes no difference to a stale pass at an equal or later time. -/
theorem stalePass_stalePass {I : Inst} (hw : bufWaits I.transport I.buf = true) {t t' : Int} (ht : t ≤ t') (tbl : ExcTable) :
    stalePass tbl (stalePass tbl I t).2 t' = stalePass tbl I t' := by
  rcases stalePass_cases tbl I t with ⟨hs, hp⟩ | ⟨-, hp⟩
  · rw [hp, stalePass_empty rfl, stalePass_stale_waits hw (isStale_mono ht hs)]
  · rw [hp]

/-- RX reads the Inst through its stale pass alone. -/
theorem recvIngest_congr {tbl : ExcTable} {I J : Inst} {now : Int} (h : stalePass tbl I now = stalePass tbl J now) (xs : List Byte) :
    recvIngest tbl I xs now = recvIngest tbl J xs now := by
  rw [recvIngest, h, recvIngest]

/-- Settles O15: extraction of a buffer that waits emits nothing, and the stale pass of the RX comes to the same. -/
theorem flushOnlyDiscards : Obligations.FlushOnlyDiscards := by
  unfold Obligations.FlushOnlyDiscards
  refine ⟨fun s I now hI hw => ?_, fun tbl I xs t t' hw ht => recvIngest_congr (stalePass_stalePass hw ht tbl) xs⟩
  rw [flushRunsTheStalePass s I now hI, extract_waits hw]

/-! ### The illegal word (rule R123) -/

/-- Settles O16: the effect of ILLEGAL writes nothing, and every Inst reads a word that is not legal as ILLEGAL. -/
theorem illegalWordChangesNothing : Obligations.IllegalWordChangesNothing := by
  unfold Obligations.IllegalWordChangesNothing
  have hexec (s : State) (I : Inst) (w : Byte) (hI : Addressed s I) : exec (.illegal w) s = .next (afterOp s I .illegal) :=
    exec_afterOp hI nofun rfl
  refine ⟨hexec, fun s I k c rest hs hc hI => ?_⟩
  have hill : decodeCommand c = .illegal c.word := by simp [decodeCommand, hc]
  have hfetch : fetchInstr (addressInst k rest s) (.command c) = .ok (.illegal c.word) :=
    fetchInstr_ok_iff.2 ⟨I, hI, congrArg Except.ok hill⟩
  rw [step_issue hs hfetch]
  exact hexec _ I c.word hI

/-! ### The host's moves (rules R116, R117, R124, R139) -/

/-- An issue that is not fetched stops the machine as the fetch says. -/
theorem step_issue_error {s : State} {k : Nat} {w : Issue} {rest : List HostMove} {stop : Host.Outcome State Fault Refusal}
    (hs : s.script = .issue k w :: rest) (hstop : fetchInstr (addressInst k rest s) w = .error stop) : step s = stop := by
  simp [step, hs, hstop]

/-- Nothing is fetched for a missing Inst (rule R117). -/
theorem fetchInstr_missing {s : State} (h : s.live = none) (w : Issue) : fetchInstr s w = .error (.fault .noInstance) := by
  simp [fetchInstr, h]

/-- Nothing is fetched from bytes that are no frame on the wire of the addressed Inst. -/
theorem fetchInstr_badFrame {s : State} {I : Inst} {w : Issue} {e : DecodeError} (hI : s.live = some I)
    (he : decode I.transport w = .error e) : fetchInstr s w = .error (.refused (.badFrame e)) := by
  simp [fetchInstr, hI, he, Except.mapError]

/-- Settles O8: one branch of `step` for each move, the issue by what its fetch stops with. -/
theorem hostMovesOpenAndCloseInstances : Obligations.HostMovesOpenAndCloseInstances := by
  unfold Obligations.HostMovesOpenAndCloseInstances
  intro s rest
  refine ⟨fun p hs => ⟨Config.freeTime s.fresh, ?create⟩, fun k hs => ?teardown, fun k a b hs => ?overlap,
    fun k w I e hs hI he => step_issue_error hs (fetchInstr_badFrame hI he),
    fun k w hs hlive => step_issue_error hs (fetchInstr_missing hlive w), fun hs => ?wait⟩
  case create => simp [step, hs, createInst, Inst.create, State.useFree]
  case teardown => simp [step, hs, teardownInst]
  case overlap => simp [step, hs]
  case wait => simp [step, hs]

end Sys2Proof.Machine

/-! # The conditions and completion (60_exceptions, rules R125, R131, R133)

The order: completion; which conditions one Frame raises (`FrameRaises`, read off the Frame alone); what extraction, the stale pass, RX and TX raise; and after them every instruction (`mem_conditions`): a condition is raised by an emitted Frame, or by the instruction itself (`OwnCause`). -/

namespace Sys2Proof.Machine

/-! ### Completion (rules R117, R131, R133) -/

/-- Settles O58: an instruction is one `onInst`, which completes exactly with the addressed Inst at hand. -/
theorem instructionsCompleteExactlyOnLiveInstances : Obligations.InstructionsCompleteExactlyOnLiveInstances := by
  unfold Obligations.InstructionsCompleteExactlyOnLiveInstances
  refine fun i s => ⟨fun ⟨I, hI⟩ => ⟨_, exec_live hI i⟩, fun hnone => ?_⟩
  rw [exec_eq_onInst]
  exact onInst_none ((countFree_live i s).trans hnone) _

/-! ### The Frames an instruction emits -/

/-- The answer does not depend on the free value (log entry 6). -/
theorem effect_result_free (tbl : ExcTable) (t t' : Int) (I : Inst) (i : Instr) :
    (effect tbl t I i).2 = (effect tbl t' I i).2 := by
  cases i <;> rfl

/-- A block that holds the Inst `I` alone, addressed. -/
def loneState (tbl : ExcTable) (I : Inst) : State :=
  { insts := [some I], excTable := tbl, sel := 0, script := [], results := [], fresh := 0 }

/-- The Frames emitted are those of the instruction's effect. -/
theorem emits_iff {tbl : ExcTable} {i : Instr} {I : Inst} {f : Frame} (t : Int) :
    Emits tbl i I f ↔ f ∈ resultFrames (effect tbl t I i).2 := by
  constructor
  · intro h
    have hlive : (loneState tbl I).live = some I := rfl
    obtain ⟨s', r, hexec, hresults, hf⟩ := h (loneState tbl I) rfl hlive
    rw [exec_live hlive] at hexec
    cases hexec
    rw [results_commit_countFree, List.append_cancel_left_eq] at hresults
    cases hresults
    rwa [effect_result_free tbl t]
  · rintro hf s rfl hI
    refine ⟨_, _, exec_live hI i, results_commit_countFree i s _ _, ?_⟩
    rwa [effect_result_free _ _ t]

/-! ### The conditions of one Frame (rule R125, numbers 2, 4 and 5) -/

/-- The conditions a Frame raises by its direction, its checksum and its function code. -/
def FrameRaises (f : Frame) (c : Condition) : Prop :=
  (c = .checksumMismatch ∧ f.direction = .receive ∧ f.checksumValid = false) ∨
  (c = .protocolException ∧ ∃ fc, f.functionCode = some fc ∧ 0x80 ≤ fc.toNat) ∨
  (c = .unknownFunction ∧ ∃ fc, f.functionCode = some fc ∧ fc.toNat < 0x80 ∧
    fc.toNat ∉ [0x01, 0x02, 0x03, 0x04, 0x05, 0x06, 0x08, 0x0F, 0x10])

/-- The class of the unknown codes, by number (rule R57). -/
theorem classOf_unknown_iff : ∀ fc : Byte, classOf fc = .unknownFunction ↔
    fc.toNat < 0x80 ∧ fc.toNat ∉ [0x01, 0x02, 0x03, 0x04, 0x05, 0x06, 0x08, 0x0F, 0x10] := by
  decide +kernel

theorem unknownFc_iff (code : Option Byte) : unknownFc code = true ↔ ∃ fc, code = some fc ∧ fc.toNat < 0x80 ∧
    fc.toNat ∉ [0x01, 0x02, 0x03, 0x04, 0x05, 0x06, 0x08, 0x0F, 0x10] := by
  cases code with
  | none => simp [unknownFc]
  | some fc => simp only [unknownFc, decide_eq_true_eq, classOf_unknown_iff, Option.some.injEq, exists_eq_left']

/-- On a Frame whose exception flag is the one of its code, the model's list of conditions is `FrameRaises`. -/
theorem mem_frameConditions {f : Frame} (hexc : f.isException = true ↔ ∃ fc, f.functionCode = some fc ∧ 0x80 ≤ fc.toNat)
    (c : Condition) : c ∈ frameConditions f ↔ FrameRaises f c := by
  have mem_ite (p : Prop) [Decidable p] (d : Condition) : c ∈ (if p then [d] else []) ↔ c = d ∧ p := by
    split <;> simp [*]
  simp only [frameConditions, List.mem_append, mem_ite, hexc, unknownFc_iff, Bool.and_eq_true, decide_eq_true_eq,
    Bool.not_eq_true', or_assoc, FrameRaises]

theorem isException_iff_of_frameOk {f : Frame} (h : frameOk f = true) :
    f.isException = true ↔ ∃ fc, f.functionCode = some fc ∧ 0x80 ≤ fc.toNat := by
  simp only [frameOk, Bool.and_eq_true, decide_eq_true_eq] at h
  obtain ⟨-, hexc⟩ := h
  rw [hexc]
  cases f.functionCode <;> simp

theorem isException_finish_iff (tbl : ExcTable) (f : Frame) :
    (finish tbl f).isException = true ↔ ∃ fc, (finish tbl f).functionCode = some fc ∧ 0x80 ≤ fc.toNat := by
  rw [finish_functionCode]
  cases hcode : f.functionCode with
  | none => simp [finish_noCode hcode, noException]
  | some fc =>
    by_cases hfc : 0x80 ≤ fc.toNat
    · simp [finish_exception hcode hfc, asException, hfc]
    · simp [finish_regular hcode hfc, noException, hfc]

/-- The conditions of a finished Frame are those of the fields it was finished from. -/
theorem mem_frameConditions_finish (tbl : ExcTable) (f : Frame) (c : Condition) :
    c ∈ frameConditions (finish tbl f) ↔ FrameRaises f c := by
  rw [mem_frameConditions (isException_finish_iff tbl f)]
  simp [FrameRaises]

/-- A regular row raises what its framer's fields raise: the decode of the payload plays no part. -/
theorem frameRaises_fnFrame (tr : Transport) (w : FnFrame) (fc : Byte) (decodePayload : List Byte → Option InterpretedPayload)
    (c : Condition) : FrameRaises (fnFrame tr w fc decodePayload) c ↔ FrameRaises (fnBase tr w fc) c :=
  Iff.rfl

/-- The exception row raises what its framer's fields raise. -/
theorem frameRaises_fnException (tbl : ExcTable) (tr : Transport) (w : FnFrame) (original : BitVec 7) (c : Condition) :
    FrameRaises (fnException tbl tr w original) c ↔ FrameRaises (fnBase tr w (exceptionFc original)) c :=
  Iff.rfl

/-! ### Extraction, the stale pass, RX and TX (rules R121, R125, R129) -/

/-- Every candidate of the ASCII loop stands in its delimiters (rule R89). -/
theorem exists_delimit_of_mem_asciiCandidates {buf cand : List Byte} (h : cand ∈ (asciiCandidates buf).1) :
    ∃ inner, cand = delimit inner := by
  induction buf using ascii_induction with
  | none buf hbuf => simp [asciiCandidates_none hbuf] at h
  | wait buf text hbuf hc => simp [asciiCandidates_wait hbuf hc] at h
  | cand buf text inner rest hbuf hc ih =>
    rw [asciiCandidates_cand hbuf hc] at h
    rcases List.mem_cons.1 h with rfl | h
    · exact ⟨inner, rfl⟩
    · exact ih h

/-- A candidate is dropped exactly when its text is not hex or decodes to fewer than 3 bytes (rule R90). -/
theorem asciiCandidateRx_eq_none_iff (tbl : ExcTable) (inner : List Byte) (now : Int) :
    asciiCandidateRx tbl (delimit inner) now = none ↔ ∀ c, hexDecode inner = some c → c.length < 3 := by
  refine ⟨fun h c hdec => ?_, fun h => asciiCandidateRx_dropped h tbl now⟩
  by_contra hc
  simp [asciiCandidateRx_frame hdec (Nat.not_lt.1 hc)] at h

/-- Extraction drops a candidate exactly when one of them gives no Frame. -/
theorem dropsCandidate_iff (tbl : ExcTable) (buf : List Byte) (now : Int) :
    dropsCandidate buf ↔ ∃ cand ∈ (asciiCandidates buf).1, asciiCandidateRx tbl cand now = none := by
  constructor
  · rintro ⟨inner, hmem, hdrop⟩
    exact ⟨_, hmem, (asciiCandidateRx_eq_none_iff tbl inner now).2 hdrop⟩
  · rintro ⟨cand, hmem, hdrop⟩
    obtain ⟨inner, rfl⟩ := exists_delimit_of_mem_asciiCandidates hmem
    exact ⟨inner, hmem, (asciiCandidateRx_eq_none_iff tbl inner now).1 hdrop⟩

/-- On an RTU wire extraction raises what its Frames raise. -/
theorem mem_extractConditions_rtu (tbl : ExcTable) (buf : List Byte) (now : Int) (c : Condition) :
    c ∈ extractConditions tbl .rtu buf now ↔ ∃ f ∈ (extract tbl .rtu buf now).1, FrameRaises f c := by
  simp [extractConditions, extract, rtuExtract, rtuFrameRx, mem_frameConditions (isException_finish_iff _ _)]

/-- On an ASCII wire a candidate raises what its Frame raises, or condition 3 when it is dropped. -/
theorem mem_extractConditions_ascii (tbl : ExcTable) (buf : List Byte) (now : Int) (c : Condition) :
    c ∈ extractConditions tbl .ascii buf now ↔
      (∃ f ∈ (extract tbl .ascii buf now).1, FrameRaises f c) ∨ (c = .malformedAscii ∧ dropsCandidate buf) := by
  have hok {f : Frame} (hf : f ∈ (extract tbl .ascii buf now).1) : c ∈ frameConditions f ↔ FrameRaises f c :=
    mem_frameConditions (isException_iff_of_frameOk (frameOk_extract tbl .ascii buf now f hf)) c
  simp only [extractConditions, List.mem_flatMap, dropsCandidate_iff tbl buf now]
  constructor
  · rintro ⟨cand, hmem, hc⟩
    cases hcand : asciiCandidateRx tbl cand now with
    | none => exact .inr ⟨by simpa [hcand] using hc, cand, hmem, hcand⟩
    | some f =>
      have hf : f ∈ (extract tbl .ascii buf now).1 := List.mem_filterMap.2 ⟨cand, hmem, hcand⟩
      exact .inl ⟨f, hf, (hok hf).1 (by simpa only [hcand] using hc)⟩
  · rintro (⟨f, hf, hraises⟩ | ⟨rfl, cand, hmem, hdrop⟩)
    · obtain ⟨cand, hmem, hcand⟩ := List.mem_filterMap.1 hf
      exact ⟨cand, hmem, by simpa only [hcand] using (hok hf).2 hraises⟩
    · exact ⟨cand, hmem, by simp [hdrop]⟩

/-- Extraction raises what its Frames raise, and condition 3 for a dropped candidate. -/
theorem mem_extractConditions (tbl : ExcTable) (tr : Transport) (buf : List Byte) (now : Int) (c : Condition) :
    c ∈ extractConditions tbl tr buf now ↔
      (∃ f ∈ (extract tbl tr buf now).1, FrameRaises f c) ∨ (c = .malformedAscii ∧ tr = .ascii ∧ dropsCandidate buf) := by
  cases tr with
  | rtu => simp [mem_extractConditions_rtu]
  | ascii => simp [mem_extractConditions_ascii]

/-- What a stale pass that fires raises besides its Frames' conditions: a candidate dropped, then the discard. -/
def StaleCause (I : Inst) (now : Int) (c : Condition) : Prop :=
  isStale I now = true ∧ ((c = .malformedAscii ∧ I.transport = .ascii ∧ dropsCandidate I.buf) ∨ c = .staleDiscard)

/-- The stale pass raises what its Frames raise, and its own causes. -/
theorem mem_staleConditions (tbl : ExcTable) (I : Inst) (now : Int) (c : Condition) :
    c ∈ staleConditions tbl I now ↔ (∃ f ∈ (stalePass tbl I now).1, FrameRaises f c) ∨ StaleCause I now c := by
  rcases stalePass_cases tbl I now with ⟨hs, hp⟩ | ⟨hs, hp⟩
  · simp only [staleConditions, hs, hp, if_true, List.mem_append, List.mem_singleton, mem_extractConditions, StaleCause,
      true_and, or_assoc]
  · simp [staleConditions, hs, hp, StaleCause]

theorem stalePass_buf (tbl : ExcTable) (I : Inst) (now : Int) :
    (stalePass tbl I now).2.buf = if isStale I now then [] else I.buf := by
  rcases stalePass_cases tbl I now with ⟨hs, hp⟩ | ⟨hs, hp⟩ <;> simp [hs, hp]

/-- The residual raises condition 7 when the cap check discards it, condition 0 when it leaves bytes (rule R121). -/
theorem mem_residualConditions (J : Inst) (c : Condition) :
    c ∈ residualConditions J ↔
      (c = .wait ∧ (capCheck J).2.buf ≠ []) ∨ (c = .overflowDiscard ∧ (capCheck J).1 = true) := by
  unfold residualConditions
  rcases capCheck_cases J with ⟨-, h⟩ | ⟨-, h⟩
  · simp [h]
  · by_cases hbuf : J.buf = [] <;> simp [h, hbuf]

/-- What RX raises besides its Frames' conditions and its stale pass: a candidate dropped, and what becomes of the residual. -/
def RxCause (tbl : ExcTable) (I : Inst) (xs : List Byte) (now : Int) (c : Condition) : Prop :=
  (c = .malformedAscii ∧ I.transport = .ascii ∧ dropsCandidate ((if isStale I now then [] else I.buf) ++ xs)) ∨
  (c = .wait ∧ (recvIngest tbl I xs now).1.buf ≠ []) ∨
  (c = .overflowDiscard ∧ (recvIngest tbl I xs now).2.2 = true)

/-- RX raises what its Frames raise, and the causes of its stale pass and of what follows (rule R129). -/
theorem mem_rxConditions (tbl : ExcTable) (I : Inst) (xs : List Byte) (now : Int) (c : Condition) :
    c ∈ rxConditions tbl I xs now ↔
      (∃ f ∈ (recvIngest tbl I xs now).2.1, FrameRaises f c) ∨ StaleCause I now c ∨ RxCause tbl I xs now c := by
  simp only [rxConditions, List.mem_append, mem_staleConditions, mem_extractConditions, mem_residualConditions]
  refine (or_congr_left or_or_or_comm).trans ?_
  simp only [RxCause, recvIngest, extractInst, List.mem_append, or_and_right, exists_or, or_assoc, appendBytes_buf,
    appendBytes_transport, stalePass_transport, stalePass_buf]

/-- What TX raises besides its Frame's conditions: on each transport, the cause of a Frame that is not valid. -/
def TxCause (tbl : ExcTable) (tr : Transport) (xs : List Byte) (now : Int) (c : Condition) : Prop :=
  (c = .sendNoAddress ∧ tr = .rtu ∧ xs = []) ∨
  (c = .malformedAscii ∧ tr = .ascii ∧ (sendFrame tbl tr xs now).checksumValid = false)

/-- An RTU send Frame is not valid exactly when its operand is empty (rule R78). -/
theorem checksumValid_sendFrame_rtu (tbl : ExcTable) (xs : List Byte) (now : Int) :
    (sendFrame tbl .rtu xs now).checksumValid = false ↔ xs = [] := by
  simp [sendFrame, rtuFrameTx, rtuFieldsTx, rtuFields]

/-- An ASCII send gives a parsed Frame or the failure Frame (rules R92, R93). -/
theorem asciiFrameTx_cases (tbl : ExcTable) (xs : List Byte) (now : Int) :
    (∃ c, asciiFrameTx tbl xs now = asciiFrame tbl c (strip xs) .send now) ∨
      asciiFrameTx tbl xs now = asciiFailTx (strip xs) now := by
  unfold asciiFrameTx
  split
  · split
    next c _ =>
      split
      · exact .inl ⟨c, rfl⟩
      · exact .inr rfl
    next => exact .inr rfl
  · exact .inr rfl

/-- A send Frame that is not valid has no function code to raise a condition by. -/
theorem not_frameRaises_sendFrame {tbl : ExcTable} {tr : Transport} {xs : List Byte} {now : Int}
    (h : (sendFrame tbl tr xs now).checksumValid = false) (c : Condition) : ¬ FrameRaises (sendFrame tbl tr xs now) c := by
  have fields : (sendFrame tbl tr xs now).direction = .send ∧ (sendFrame tbl tr xs now).functionCode = none := by
    cases tr with
    | rtu =>
      obtain rfl := (checksumValid_sendFrame_rtu tbl xs now).1 h
      exact ⟨rfl, rfl⟩
    | ascii =>
      simp only [sendFrame] at h ⊢
      rcases asciiFrameTx_cases tbl xs now with ⟨bytes, hf⟩ | hf <;> rw [hf] at h ⊢
      · simp [asciiFrame, asciiFields, asciiValid] at h
      · exact ⟨rfl, rfl⟩
  simp [FrameRaises, fields]

/-- TX raises what its Frame raises when it is valid, and the cause of the failure when it is not. -/
theorem mem_txConditions (tbl : ExcTable) (tr : Transport) (xs : List Byte) (now : Int) (c : Condition) :
    c ∈ txConditions tbl tr xs now ↔ FrameRaises (sendFrame tbl tr xs now) c ∨ TxCause tbl tr xs now c := by
  cases hv : (sendFrame tbl tr xs now).checksumValid with
  | true =>
    have hcause : ¬ TxCause tbl tr xs now c := by
      rintro (⟨-, rfl, hxs⟩ | ⟨-, -, hfailed⟩)
      · simp [(checksumValid_sendFrame_rtu tbl xs now).2 hxs] at hv
      · simp [hv] at hfailed
    simp [txConditions, hv, hcause, mem_frameConditions (isException_iff_of_frameOk (frameOk_sendFrame tbl tr xs now))]
  | false =>
    cases tr with
    | rtu => simp [txConditions, hv, not_frameRaises_sendFrame hv, TxCause, ← checksumValid_sendFrame_rtu tbl xs now]
    | ascii => simp [txConditions, hv, not_frameRaises_sendFrame hv, TxCause]

/-! ### Every instruction (rule R125) -/

/-- What an instruction raises besides the conditions of the Frames it emits: TX, RX, FLUSH and ILLEGAL alone raise any. -/
def OwnCause (tbl : ExcTable) (I : Inst) (i : Instr) (c : Condition) : Prop :=
  (∃ xs now, i = .tx xs now ∧ TxCause tbl I.transport xs now c) ∨
  (∃ now, ((∃ xs, i = .rx xs now) ∨ i = .flush now) ∧ StaleCause I now c) ∨
  (∃ xs now, i = .rx xs now ∧ RxCause tbl I xs now c) ∨
  (∃ w, i = .illegal w ∧ c = .illegalCommand)

/-- A condition is raised by a Frame that the instruction emits, or is the instruction's own. -/
theorem mem_conditions (tbl : ExcTable) (I : Inst) (i : Instr) (c : Condition) :
    c ∈ conditions tbl i I ↔ (∃ f, Emits tbl i I f ∧ FrameRaises f c) ∨ OwnCause tbl I i c := by
  simp only [emits_iff 0]
  cases i with
  | tx xs now => simpa [conditions, effect, resultFrames, OwnCause] using mem_txConditions tbl I.transport xs now c
  | rx xs now => simpa [conditions, effect, resultFrames, OwnCause] using mem_rxConditions tbl I xs now c
  | flush now => simpa [conditions, effect, resultFrames, OwnCause] using mem_staleConditions tbl I now c
  | _ =>
    simp [conditions, effect, resultFrames, OwnCause, mem_frameConditions_finish, frameRaises_fnFrame,
      frameRaises_fnException]

/-- A TX emits its one Frame. -/
theorem exists_emits_tx_iff {tbl : ExcTable} {I : Inst} {i : Instr} {xs : List Byte} {now : Int} (P : Frame → Prop) :
    (∃ f, i = .tx xs now ∧ Emits tbl i I f ∧ P f) ↔ i = .tx xs now ∧ P (sendFrame tbl I.transport xs now) := by
  constructor
  · rintro ⟨f, rfl, hf, hP⟩
    obtain rfl : f = sendFrame tbl I.transport xs now := by simpa [effect, resultFrames] using (emits_iff 0).1 hf
    exact ⟨rfl, hP⟩
  · rintro ⟨rfl, hP⟩
    exact ⟨_, rfl, (emits_iff 0).2 (by simp [effect, resultFrames]), hP⟩

/-- Settles O59: `mem_conditions`, read for each condition. A Frame raises 2, 4 and 5; the stale pass 1 and 3; RX 0, 3 and 7; TX 3 and 6. -/
theorem conditionsHaveTheirCauses : Obligations.ConditionsHaveTheirCauses := by
  unfold Obligations.ConditionsHaveTheirCauses
  refine ⟨fun tbl i I => ?_, rfl⟩
  simp only [mem_conditions, FrameRaises, OwnCause, StaleCause, RxCause, TxCause]
  refine ⟨?wait, ?stale, ?checksum, ?ascii, ?exception, ?unknown, ?noAddress, ?overflow, ?illegal⟩
  case checksum | exception | unknown => simp
  case wait | overflow | illegal => simp
  case stale => simp [isStale_iff]
  case noAddress => simp [and_comm]
  case ascii =>
    simp only [exists_emits_tx_iff fun f => f.checksumValid = false]
    by_cases htr : I.transport = .ascii <;> simp [htr]

end Sys2Proof.Machine

/-! # Reset and hazards: receptions without data (70_reset_and_hazards, rule R144; 30_encoding, rule R62) -/

namespace Sys2Proof.Machine

/-- The stale pass does nothing to a buffer that is not stale. -/
theorem stalePass_of_not_stale {I : Inst} {now : Int} (hs : isStale I now = false) (tbl : ExcTable) :
    stalePass tbl I now = ([], I) := by
  rw [stalePass, hs, if_neg Bool.false_ne_true]

/-- RX of nothing writes LAST_T alone on a good Inst that is not stale: its buffer waits, so extraction gives it back, within CAP. -/
theorem recvIngest_nil {I : Inst} {now : Int} (hok : instOk I = true) (hs : isStale I now = false) (tbl : ExcTable) :
    recvIngest tbl I [] now = ({ I with lastT := now }, [], false) := by
  obtain ⟨hwaits, hlen⟩ := Bool.and_eq_true_iff.1 hok
  have hfit : ¬ I.cap < I.buf.length := Nat.not_lt.2 (of_decide_eq_true hlen)
  have hnew : extract tbl I.transport (I.buf ++ []) now = ([], I.buf) := by
    rw [List.append_nil, extract_waits hwaits]
  rw [recvIngest_eq (stalePass_of_not_stale hs tbl) hnew, if_neg hfit, decide_eq_false hfit, List.nil_append]

/-- Settles O49: RX of nothing writes LAST_T alone, and FLUSH is the stale pass, which does nothing. -/
theorem emptyReceiveRefreshesTheTime : Obligations.EmptyReceiveRefreshesTheTime := by
  unfold Obligations.EmptyReceiveRefreshesTheTime
  intro s I now hI hok hs
  constructor
  · exact exec_afterOp hI nofun (by rw [effect, recvIngest_nil hok hs])
  · exact exec_afterOp hI nofun (by rw [effect, stalePass_of_not_stale hs])

end Sys2Proof.Machine
